-- ==== Sys2Proof/Word.lean ====
section
/-! DEFINITION. The word types of the block (`00_scope.md` rules R7 and R8). -/

namespace Sys2Proof

/-- One byte of the input buffer (rule R31). -/
abbrev Byte := BitVec 8

/-- A 32-bit word: `in_data`, RawBits, `recon` (rules R14, R16, R33). -/
abbrev Word := BitVec 32

/-- One cycle's command bundle, packed as rule R44 lays it out for the block's `LEN_W`: `in_data`
at `[31:0]`, `in_len` at `[31+LEN_W:32]`, `in_valid` at `[32+LEN_W]`, `rst` at `[33+LEN_W]`.
Bits from `34+LEN_W` up belong to no port, and nothing reads them (log 11). -/
abbrev Bundle := Nat

end Sys2Proof
end

