-- ==== Sys2Proof/Config.lean ====
section
/-! DEFINITION. What one block fixes for good (`00_scope.md` rules R6 and R7), and the one free
value of the model: what the environment presents once the list in State is used up (log 2). -/

namespace Sys2Proof

/-- The build parameters of rule R7. `outReg` is `OUT_REG`, `lenW` is `LEN_W`. They are plain data
that State carries and no step changes, so a statement about every state covers both
realisations and every width (log 1). -/
structure Params where
  outReg : Bool
  lenW   : Nat
  deriving DecidableEq, Repr

/-- The legal values of rule R7: `OUT_REG` is 0 or 1, `LEN_W` is at least 3. -/
def Params.legal (cfg : Params) : Bool := decide (3 ≤ cfg.lenW)

/-- The values this spec takes (rule R7): `OUT_REG = 1`, `LEN_W = 3`. -/
def Params.default : Params := { outReg := true, lenW := 3 }

/-- The exponent bias, fixed wiring (rule R6). -/
def Config.BIAS : Int := 127

/-- FREE VALUE (log 2). The bundle the environment presents when State lists none, applied to the
counter `State.draws`. Nothing constrains it. -/
opaque Config.freeBundle : Nat → Bundle

end Sys2Proof
end

