-- ==== Sys2Proof/Syntax.lean ====
section
/-! DEFINITION. The instructions: one constructor per row of `spec/opcode_table.json`. -/

namespace Sys2Proof

/-- The ten rows of the opcode table (`30_encoding.md` rule R60).
The first four are the commands of rule R45, one bundle each. Port bits that a command ignores
stay as operands, so that no bit of a bundle is dropped (log 7).
The other six are the classes of rule R54: each is the DECODE of a word of that class (log 6). -/
inductive Instr where
  /-- RESET (rule R122): `rst = 1`, the other ports ignored. -/
  | reset (valid : Bool) (len : Nat) (data : Word)
  /-- IDLE (rule R62): `in_valid = 0`, `in_len` and `in_data` ignored. -/
  | idle (len : Nat) (data : Word)
  /-- DECODE (rule R63): `in_valid = 1`, `in_len = 4`. -/
  | decode (data : Word)
  /-- DECODE_BADLEN (rule R73): `in_valid = 1`, `in_len ≠ 4`, `in_data` ignored. -/
  | decodeBadlen (len : Nat) (data : Word)
  /-- ZERO (rule R77): `bexp = 0`, `frac = 0`. -/
  | zero (sign : BitVec 1)
  /-- SUBNORMAL (rule R78): `bexp = 0`, `frac ≠ 0`. -/
  | subnormal (sign : BitVec 1) (frac : BitVec 23)
  /-- NORMALIZED (rule R79): `1 ≤ bexp ≤ 254`. -/
  | normalized (sign : BitVec 1) (bexp : BitVec 8) (frac : BitVec 23)
  /-- POS_INF (rule R80): the word `32'h7F800000`. -/
  | posInf
  /-- NEG_INF (rule R81): the word `32'hFF800000`. -/
  | negInf
  /-- NAN (rule R82): `bexp = 255`, `frac ≠ 0`. -/
  | nan (sign : BitVec 1) (frac : BitVec 23)
  deriving DecidableEq, Repr

end Sys2Proof
end

