-- ==== Sys2Proof/WellFormed.lean ====
section
/-! DEFINITION. Which terms of `Instr` are instructions of a block with given parameters. -/

namespace Sys2Proof

/-- The checks of the opcode table: a length fits the `in_len` port (rule R44), a bad length is not
4 (rule R73), a subnormal and a NaN have a fraction (rules R78, R82), a normalized exponent is in
1..254 (rule R79), and RESET is selected only with `OUT_REG = 1` (rules R45, R46). -/
def Instr.wf (cfg : Params) : Instr → Bool
  | .reset _ len _       => cfg.outReg && decide (len < 2 ^ cfg.lenW)
  | .idle len _          => decide (len < 2 ^ cfg.lenW)
  | .decode _            => true
  | .decodeBadlen len _  => decide (len < 2 ^ cfg.lenW) && len != 4
  | .zero _              => true
  | .subnormal _ frac    => frac != 0#23
  | .normalized _ bexp _ => bexp != 0#8 && bexp != 255#8
  | .posInf              => true
  | .negInf              => true
  | .nan _ frac          => frac != 0#23

end Sys2Proof
end

