-- ==== Sys2Proof/Decode.lean ====
section
/-! DEFINITION. The two encodings of `30_encoding.md`: the command bundle (rules R43 to R46) and
the binary32 word (rules R47, R48, R54), read by a total decoder and written by an encoder. -/

namespace Sys2Proof

/-! ## The binary32 word -/

/-- `sign = (raw >> 31) & 1` (rule R48). -/
def signOf (w : Word) : BitVec 1 := ((w >>> 31) &&& 1#32).setWidth 1

/-- `bexp = (raw >> 23) & 8'hFF` (rule R48). -/
def bexpOf (w : Word) : BitVec 8 := ((w >>> 23) &&& 0xFF#32).setWidth 8

/-- `frac = raw & 23'h7FFFFF` (rule R48). -/
def fracOf (w : Word) : BitVec 23 := (w &&& 0x7FFFFF#32).setWidth 23

/-- The word with the three fields in their places, `{sign, bexp, frac}` (rule R47). -/
def packWord (sign : BitVec 1) (bexp : BitVec 8) (frac : BitVec 23) : Word := sign ++ bexp ++ frac

/-- Buffer byte `k` of the `in_data` port, lanes `[8k+7:8k]` (rule R32). -/
def lane (data : Word) (k : Nat) : Byte := data.extractLsb' (8 * k) 8

/-- `{byte[3], byte[2], byte[1], byte[0]}` (rule R33). -/
def assemble (b0 b1 b2 b3 : Byte) : Word := b3 ++ b2 ++ b1 ++ b0

/-- The six classes by name (rule R52). -/
inductive Class where
  | zero | subnormal | normalized | positiveInfinity | negativeInfinity | nan
  deriving DecidableEq, Repr

/-- What a row of the class map asks for beside its mask (rule R54). -/
inductive ClassConstraint where
  | none | fracNonzero | bexpNormal
  deriving DecidableEq, Repr

/-- One `binary32` row of the opcode table (rule R60). -/
structure ClassRow where
  cls        : Class
  pattern    : Word
  mask       : Word
  constraint : ClassConstraint
  deriving DecidableEq, Repr

/-- The class map of rule R54, row by row as `opcode_table.json` writes it. -/
def classRows : List ClassRow :=
  [ ⟨.zero,             0x00000000#32, 0x7FFFFFFF#32, .none⟩,
    ⟨.subnormal,        0x00000000#32, 0x7F800000#32, .fracNonzero⟩,
    ⟨.normalized,       0x00000000#32, 0x00000000#32, .bexpNormal⟩,
    ⟨.positiveInfinity, 0x7F800000#32, 0xFFFFFFFF#32, .none⟩,
    ⟨.negativeInfinity, 0xFF800000#32, 0xFFFFFFFF#32, .none⟩,
    ⟨.nan,              0x7F800000#32, 0x7F800000#32, .fracNonzero⟩ ]

/-- The field constraint of a row, on a word (rule R54). -/
def ClassConstraint.holds : ClassConstraint → Word → Bool
  | .none, _        => true
  | .fracNonzero, w => fracOf w != 0#23
  | .bexpNormal, w  => decide (1 ≤ (bexpOf w).toNat) && decide ((bexpOf w).toNat ≤ 254)

/-- A row selects a word: `raw & mask == match`, and the constraint holds (rule R54). -/
def ClassRow.selects (r : ClassRow) (w : Word) : Bool :=
  w &&& r.mask == r.pattern && r.constraint.holds w

/-- The class instruction of a word: the fields its row leaves free are its operands. -/
def classInstr (cls : Class) (w : Word) : Instr :=
  match cls with
  | .zero             => .zero (signOf w)
  | .subnormal        => .subnormal (signOf w) (fracOf w)
  | .normalized       => .normalized (signOf w) (bexpOf w) (fracOf w)
  | .positiveInfinity => .posInf
  | .negativeInfinity => .negInf
  | .nan              => .nan (signOf w) (fracOf w)

/-- The second stage of rule R60: the class row of a word. Exactly one row matches (rule R54), so
this never answers none. -/
def decodeWord (w : Word) : Option Instr :=
  match classRows.find? (fun r => r.selects w) with
  | some r => some (classInstr r.cls w)
  | none   => none

/-! ## The command bundle -/

/-- The input ports of rule R14 in one cycle (rule R15). -/
structure Ports where
  rst     : Bool
  inValid : Bool
  inLen   : Nat
  inData  : Word
  deriving DecidableEq, Repr

/-- The ports a bundle shows (rule R44, general `LEN_W`). -/
def portsOf (lenW : Nat) (c : Bundle) : Ports :=
  { rst     := c.testBit (33 + lenW)
    inValid := c.testBit (32 + lenW)
    inLen   := (c >>> 32) % 2 ^ lenW
    inData  := BitVec.ofNat 32 c }

/-- The bundle that shows given ports (rule R44, general `LEN_W`). -/
def bundleOf (lenW : Nat) (p : Ports) : Bundle :=
  p.inData.toNat + 2 ^ 32 * (p.inLen + 2 ^ lenW * (p.inValid.toNat + 2 * p.rst.toNat))

/-- The command a cycle's ports select, first match wins (rule R45). With `OUT_REG = 0` the row
RESET is skipped and `rst` is no part of the command (rule R46). -/
def selectCommand (outReg : Bool) (p : Ports) : Instr :=
  if outReg && p.rst then .reset p.inValid p.inLen p.inData
  else if !p.inValid then .idle p.inLen p.inData
  else if p.inLen == 4 then .decode p.inData
  else .decodeBadlen p.inLen p.inData

/-- The command of a bundle. Total: no bundle is illegal (rules R45, R55). -/
def decodeBundle (cfg : Params) (c : Bundle) : Instr :=
  selectCommand cfg.outReg (portsOf cfg.lenW c)

/-! ## Bytes

The spec gives a bundle no byte layout. Here it stands in as few bytes as hold it, the byte of
bit 0 first, and the bits left over in the last byte are 0 (log 8). A 4-byte buffer is a binary32
word, byte[0] first (rule R31). -/

/-- How many bytes hold a bundle of `34 + LEN_W` bits (rule R43): 5 for `LEN_W = 3`. -/
def bundleBytes (lenW : Nat) : Nat := (34 + lenW + 7) / 8

/-- The number whose bytes are listed, least significant first. -/
def natOfBytes : List Byte → Nat
  | []      => 0
  | b :: bs => b.toNat + 256 * natOfBytes bs

/-- The low `n` bytes of a number, least significant first. -/
def bytesOfNat : Nat → Nat → List Byte
  | 0, _     => []
  | n + 1, w => BitVec.ofNat 8 w :: bytesOfNat n (w / 256)

/-- Why bytes are no instruction. -/
inductive DecodeError where
  /-- Neither the 4 bytes of a buffer nor the bytes of one bundle. -/
  | wrongByteCount
  /-- A bit above the bundle's `34 + LEN_W` bits is 1. -/
  | bitAboveBundle
  /-- No row of the class map selects the word. Rule R54 rules it out. -/
  | noClassRow
  deriving DecidableEq, Repr

/-- The instruction of a list of bytes: four are a buffer, which the class rows decode; as many as
hold a bundle are a bundle, which the command rows decode (rule R60). Others are rejected. -/
def decodeBytes (cfg : Params) (bs : List Byte) : Except DecodeError Instr :=
  match bs with
  | [b0, b1, b2, b3] =>
    match decodeWord (assemble b0 b1 b2 b3) with
    | some i => .ok i
    | none   => .error .noClassRow
  | _ =>
    if bs.length = bundleBytes cfg.lenW then
      if natOfBytes bs < 2 ^ (34 + cfg.lenW) then .ok (decodeBundle cfg (natOfBytes bs))
      else .error .bitAboveBundle
    else .error .wrongByteCount

/-! ## The encoder -/

/-- The word an instruction puts on `in_data`: a command's operand, or the word of a class instruction
(rules R47, R54). -/
def wordOf : Instr → Word
  | .reset _ _ data           => data
  | .idle _ data              => data
  | .decode data              => data
  | .decodeBadlen _ data      => data
  | .zero sign                => packWord sign 0#8 0#23
  | .subnormal sign frac      => packWord sign 0#8 frac
  | .normalized sign bexp frac => packWord sign bexp frac
  | .posInf                   => 0x7F800000#32
  | .negInf                   => 0xFF800000#32
  | .nan sign frac            => packWord sign 0xFF#8 frac

/-- The ports that present an instruction (rule R45). A class instruction is the DECODE of its
word. -/
def encodePorts (i : Instr) : Ports :=
  match i with
  | .reset valid len data  => ⟨true, valid, len, data⟩
  | .idle len data         => ⟨false, false, len, data⟩
  | .decode data           => ⟨false, true, 4, data⟩
  | .decodeBadlen len data => ⟨false, true, len, data⟩
  | .zero _                => ⟨false, true, 4, wordOf i⟩
  | .subnormal _ _         => ⟨false, true, 4, wordOf i⟩
  | .normalized _ _ _      => ⟨false, true, 4, wordOf i⟩
  | .posInf                => ⟨false, true, 4, wordOf i⟩
  | .negInf                => ⟨false, true, 4, wordOf i⟩
  | .nan _ _               => ⟨false, true, 4, wordOf i⟩

/-- The bundle that presents an instruction to the block (rule R44). -/
def encodeBundle (cfg : Params) (i : Instr) : Bundle := bundleOf cfg.lenW (encodePorts i)

/-- The four bytes of a buffer, byte[0] first (rules R31, R32). -/
def bufferBytes (w : Word) : List Byte := [lane w 0, lane w 1, lane w 2, lane w 3]

/-- The bytes of an instruction in its own row's format (rule R60): a bundle for the four command
rows, a buffer for the six class rows. -/
def encode (cfg : Params) (i : Instr) : List Byte :=
  match i with
  | .reset _ _ _        => bytesOfNat (bundleBytes cfg.lenW) (encodeBundle cfg i)
  | .idle _ _           => bytesOfNat (bundleBytes cfg.lenW) (encodeBundle cfg i)
  | .decode _           => bytesOfNat (bundleBytes cfg.lenW) (encodeBundle cfg i)
  | .decodeBadlen _ _   => bytesOfNat (bundleBytes cfg.lenW) (encodeBundle cfg i)
  | .zero _             => bufferBytes (wordOf i)
  | .subnormal _ _      => bufferBytes (wordOf i)
  | .normalized _ _ _   => bufferBytes (wordOf i)
  | .posInf             => bufferBytes (wordOf i)
  | .negInf             => bufferBytes (wordOf i)
  | .nan _ _            => bufferBytes (wordOf i)

/-- The instruction of a row of `opcode_table.json`, its bits numbered as the table numbers them:
the row's bytes, least significant first, given to the decoder with the spec's own parameters. -/
def decodeTableWord (nbits w : Nat) : Option Instr :=
  match decodeBytes Params.default (bytesOfNat ((nbits + 7) / 8) (w % 2 ^ nbits)) with
  | .ok i    => some i
  | .error _ => none

end Sys2Proof
end

