-- ==== Sys2Proof/Machine/State.lean ====
section
/-! DEFINITION. The state of the block (`10_state.md`), plain data, and its reset. -/

namespace Sys2Proof.Machine

/-- Why a step ends in a fault. The block has none: "No behaviour of this block is a fault or a stuck
state" (`93_implementation_defined.md`), and an error is a result tag, not a trap (rule R111). The
type is closed with no constructor, so no step can fault. Safe and unsafe do not arise. -/
inductive Fault where
  deriving DecidableEq, Repr

/-- Why a step is refused. -/
inductive Refusal where
  /-- Raised by no meaning and no step: every row of the opcode table has its meaning. It is the
  interface's name for an instruction without one. Safe. -/
  | notModelled (mnemonic : String)
  deriving DecidableEq, Repr

/-- The result record of rule R16, 144 bits: one field per result port of rule R14. `cls` and `err`
are kept as codes (rules R52, R53), since a register can hold any code before the first reset
(rule R125). -/
structure Result where
  err    : BitVec 2
  cls    : BitVec 3
  sign   : BitVec 1
  bexp   : BitVec 8
  frac   : BitVec 23
  eexp   : BitVec 9
  eexpOk : Bool
  sig24  : BitVec 24
  uexp   : BitVec 9
  raw    : Word
  recon  : Word
  deriving DecidableEq, Repr

/-- What the output ports show (rule R14): `out_valid`, and `out_<f>` for every field `f` of `Result`. -/
structure Outputs where
  valid : Bool
  res   : Result
  deriving DecidableEq, Repr

/-- The reset value of every result register (rule R28). It is no decode result. -/
def Result.resetValue : Result :=
  { err := 0#2, cls := 0#3, sign := 0#1, bexp := 0#8, frac := 0#23, eexp := 0#9, eexpOk := false
    sig24 := 0#24, uexp := 0#9, raw := 0#32, recon := 0#32 }

/-- The machine. With `OUT_REG = 1`, `valid` and `res` are the register set of rule R19, and the output
ports show them at all times (rule R22). With `OUT_REG = 0` they are what the output ports show for
the input just taken (rule R18, log 4). -/
structure State where
  /-- The parameters of rule R7, fixed for the block (log 1). -/
  cfg    : Params
  /-- `r.valid`, the port `out_valid`. -/
  valid  : Bool
  /-- `r.<f>` for every field `f` of `Result`, the ports `out_<f>`. -/
  res    : Result
  /-- The model's own: what the environment presents at the coming edges, oldest first (log 2). -/
  inputs : List Bundle
  /-- The model's own: how many free bundles have been drawn (log 3). -/
  draws  : Nat
  deriving DecidableEq, Repr

/-- The machine right after a reset edge (rules R28, R122), with the parameters this spec takes
(rule R7) and nothing presented. -/
def State.reset : State :=
  { cfg := Params.default, valid := false, res := Result.resetValue, inputs := [], draws := 0 }

/-- The machine at power-up: every register is the arbitrary draw given (rule R125). That the step then
works on that draw as on any other registers until the first reset edge is the model's choice (log 14). -/
def State.powerUp (cfg : Params) (valid : Bool) (res : Result) : State :=
  { cfg := cfg, valid := valid, res := res, inputs := [], draws := 0 }

end Sys2Proof.Machine
end

