-- ==== Sys2Proof/Machine/Flags.lean ====
section
/-! DEFINITION. The two status outputs of a result, `cls` and `err` (rule R27): the classification
(`41_classify.md` section 1) and the equality of the self-check (`42_self_check.md`). -/

namespace Sys2Proof.Machine

/-- The code of a class on `cls[2:0]` (rule R52). -/
def classCode : Class → BitVec 3
  | .zero             => 0#3
  | .subnormal        => 1#3
  | .normalized       => 2#3
  | .positiveInfinity => 3#3
  | .negativeInfinity => 4#3
  | .nan              => 5#3

/-- The code NONE: no classification, the length was invalid (rule R52). -/
def noClassCode : BitVec 3 := 7#3

/-- The class of the three fields, the arms of rule R76 in their order. It depends on the sign for
the two infinities (conflict C1). -/
def classify (sign : BitVec 1) (bexp : BitVec 8) (frac : BitVec 23) : Class :=
  if bexp = 0#8 ∧ frac = 0#23 then .zero
  else if bexp = 0#8 ∧ frac ≠ 0#23 then .subnormal
  else if bexp = 255#8 ∧ frac = 0#23 ∧ sign = 0#1 then .positiveInfinity
  else if bexp = 255#8 ∧ frac = 0#23 ∧ sign = 1#1 then .negativeInfinity
  else if bexp = 255#8 ∧ frac ≠ 0#23 then .nan
  else .normalized

/-- The error tags (rules R53, R106). `reconstructionMismatch` stays although no DECODE produces it
(rule R105). -/
inductive ErrorTag where
  | none | invalidInputLength | reconstructionMismatch
  deriving DecidableEq, Repr

/-- The code of an error on `err[1:0]` (rules R53, R107). -/
def errorCode : ErrorTag → BitVec 2
  | .none                   => 0#2
  | .invalidInputLength     => 1#2
  | .reconstructionMismatch => 2#2

/-- `is_nan(w)` (rule R98). -/
def isNan (w : Word) : Bool := bexpOf w == 0xFF#8 && fracOf w != 0#23

/-- NaN-aware equality: two NaNs are equal whatever their signs and payloads, any other pair only
when every bit agrees (rule R98). -/
def nanAwareEq (a b : Word) : Bool := (isNan a && isNan b) || a == b

end Sys2Proof.Machine
end

