-- ==== Sys2Proof/Machine/Operands.lean ====
section
/-! DEFINITION. Assembling the buffer and extracting its fields (`20_memory.md`, `40_decode.md`
sections 3 and 4), and the unpacked and rebuilt forms (`41_classify.md` sections 2 and 3). -/

namespace Sys2Proof.Machine

/-- RawBits: the four bytes on the lanes, assembled with byte[0] least significant (rule R33). -/
def rawBits (data : Word) : Word := assemble (lane data 0) (lane data 1) (lane data 2) (lane data 3)

/-- The sign as step 1 takes it from byte[3] (rule R49). -/
def bytewiseSign (_b0 _b1 _b2 b3 : Byte) : BitVec 1 := b3.extractLsb' 7 1

/-- The biased exponent as step 2 takes it from byte[3] and byte[2] (rule R49). -/
def bytewiseBexp (_b0 _b1 b2 b3 : Byte) : BitVec 8 := b3.extractLsb' 0 7 ++ b2.extractLsb' 7 1

/-- The fraction as step 3 takes it from byte[2], byte[1] and byte[0] (rule R49). -/
def bytewiseFrac (b0 b1 b2 _b3 : Byte) : BitVec 23 := b2.extractLsb' 0 7 ++ b1 ++ b0

/-- `tc_9(i)`, the 9-bit two's complement encoding (rule R8). -/
def tc9 (i : Int) : BitVec 9 := BitVec.ofInt 9 i

/-- `eexp = tc_9(bexp - 127)`, for every class (rules R50, R69). -/
def effectiveExponent (bexp : BitVec 8) : BitVec 9 := tc9 (bexp.toNat - Config.BIAS)

/-- `eexp_ok = (bexp != 0) && (bexp != 255)` (rules R64, R70). -/
def effectiveExponentOk (bexp : BitVec 8) : Bool := bexp != 0#8 && bexp != 255#8

/-- `uexp`: -126 where `bexp = 0`, else `bexp - 127` (rule R87). -/
def unpackedExponent (bexp : BitVec 8) : BitVec 9 :=
  if bexp = 0#8 then tc9 (-126) else tc9 (bexp.toNat - Config.BIAS)

/-- `hidden = 1` iff the class is Normalized (rule R85). -/
def hiddenBit (cls : Class) : BitVec 1 := if cls = .normalized then 1#1 else 0#1

/-- `sig24 = {hidden, frac}` (rule R86). -/
def unpackedSignificand (cls : Class) (frac : BitVec 23) : BitVec 24 := hiddenBit cls ++ frac

/-- `recon`, the binary32 word of the reconstructed value, class by class (rule R88). -/
def reconstruct (cls : Class) (sign : BitVec 1) (bexp : BitVec 8) (frac : BitVec 23) : Word :=
  match cls with
  | .zero             => packWord sign 0#8 0#23
  | .subnormal        => packWord sign 0#8 frac
  | .normalized       => packWord sign bexp frac
  | .positiveInfinity => 0x7F800000#32
  | .negativeInfinity => 0xFF800000#32
  | .nan              => packWord sign 0xFF#8 frac

end Sys2Proof.Machine
end

