-- ==== Sys2Proof/Machine/Ops.lean ====
section
/-! DEFINITION. The operations the meanings share: reporting an error, `decode_comb`
(`40_decode.md` rule R64), loading the output stage (`10_state.md` rules R18 to R21), resetting it
(`70_reset_and_hazards.md` rule R122), and taking the next bundle from the ports. The block has no trap entry and
no trap return (rules R111, R112); `report` stands in their place. -/

namespace Sys2Proof.Machine

/-! ## The combinational function -/

/-- `report <Error>`: set the result's error code, and nothing else (rules R11, R111). -/
def report (e : ErrorTag) (r : Result) : Result := { r with err := errorCode e }

/-- The record of a buffer that was not decoded: `cls = 7` (NONE), every other field 0
(rules R73, R107). -/
def undecoded : Result := { Result.resetValue with cls := noClassCode }

/-- The fields of an accepted buffer, before the self-check (rule R64). -/
def decodeFields (raw : Word) : Result :=
  let sign := signOf raw
  let bexp := bexpOf raw
  let frac := fracOf raw
  let cls  := classify sign bexp frac
  { err    := errorCode .none
    cls    := classCode cls
    sign   := sign
    bexp   := bexp
    frac   := frac
    eexp   := effectiveExponent bexp
    eexpOk := effectiveExponentOk bexp
    sig24  := unpackedSignificand cls frac
    uexp   := unpackedExponent bexp
    raw    := raw
    recon  := reconstruct cls sign bexp frac }

/-- The self-check of rules R97 and R99: compare `recon` with the reference word `raw` (rule R96); on a
mismatch report it and keep every other field. -/
def selfCheck (r : Result) : Result :=
  if nanAwareEq r.recon r.raw then report .none r else report .reconstructionMismatch r

/-- `decode_comb(data, len)` (rule R64). The length comes first (rules R65, R110): with a bad length
nothing is decoded or checked (rule R102). -/
def decodeComb (data : Word) (len : Nat) : Result :=
  if len = 4 then selfCheck (decodeFields (rawBits data))
  else report .invalidInputLength undecoded

/-! ## The output stage -/

/-- Show a result: `valid` becomes 1 and every result field is loaded (rule R20; with `OUT_REG = 0`
driven, rule R18). -/
def loadResult (r : Result) (s : State) : State := { s with valid := true, res := r }

/-- No command is presented: `valid` becomes 0. With `OUT_REG = 1` every result register keeps its
value (rule R21). With `OUT_REG = 0` the result ports follow the inputs (rules R18, R62). -/
def showIdle (len : Nat) (data : Word) (s : State) : State :=
  if s.cfg.outReg then { s with valid := false }
  else { s with valid := false, res := decodeComb data len }

/-- `rst = 1`. With `OUT_REG = 1` every register takes its reset value (rules R28, R122). With
`OUT_REG = 0` there is nothing to reset: `rst` has no effect and the outputs follow the other ports
(rules R18, R124, log 5). -/
def showReset (valid : Bool) (len : Nat) (data : Word) (s : State) : State :=
  if s.cfg.outReg then { s with valid := false, res := Result.resetValue }
  else { s with valid := valid, res := decodeComb data len }

/-- The output ports: with `OUT_REG = 1` the registers at all times (rule R22), `outputs(s) = s` of rule
R134; with `OUT_REG = 0` what the input just taken drives (rule R18, log 4). -/
def State.outputs (s : State) : Outputs := { valid := s.valid, res := s.res }

/-! ## The input ports -/

/-- The bundle on the ports at the coming edge, and the state with it taken (rules R15, R132): the
oldest of the presented ones, or a free one where none is listed (log 2). -/
def takeBundle (s : State) : Bundle × State :=
  match s.inputs with
  | c :: rest => (c, { s with inputs := rest })
  | []        => (Config.freeBundle s.draws % 2 ^ (34 + s.cfg.lenW), { s with draws := s.draws + 1 })

/-- The environment presents one bundle at the coming edge, before the listed ones. -/
def presentNext (c : Bundle) (s : State) : State := { s with inputs := c :: s.inputs }

/-- The bundle of a table row's bits on this block: a class row's 32 bits are the buffer of a DECODE
(rules R54, R58, log 6), a command row's bits are the bundle itself. -/
def rowBundle (lenW nbits w : Nat) : Bundle :=
  if nbits ≤ 32 then bundleOf lenW ⟨false, true, 4, BitVec.ofNat 32 w⟩ else w

end Sys2Proof.Machine
end

