-- ==== Sys2Proof/Machine/Classes.lean ====
section
/-! DEFINITION. The meanings of the six class rows: the DECODE of a word of the class, its result
written from the class's own rule (`41_classify.md` rules R77 to R82, and R85 to R88 for `sig24`,
`uexp` and `recon`), not from `decode_comb`. `err` is 0 in each (rule R100). -/

namespace Sys2Proof.Machine

/-- Zero (rules R77, R90): either sign, kept in `sign`, `raw` and `recon`; `eexp = -127`,
`uexp = -126`. -/
def zeroResult (sign : BitVec 1) : Result :=
  { err := 0#2, cls := 0#3, sign := sign, bexp := 0#8, frac := 0#23, eexp := tc9 (-127), eexpOk := false
    sig24 := 0#24, uexp := tc9 (-126), raw := packWord sign 0#8 0#23, recon := packWord sign 0#8 0#23 }

/-- Subnormal (rules R78, R94): no implicit one; `eexp = -127` while the scale `uexp` is -126. -/
def subnormalResult (sign : BitVec 1) (frac : BitVec 23) : Result :=
  { err := 0#2, cls := 1#3, sign := sign, bexp := 0#8, frac := frac, eexp := tc9 (-127), eexpOk := false
    sig24 := 0#1 ++ frac, uexp := tc9 (-126)
    raw := packWord sign 0#8 frac, recon := packWord sign 0#8 frac }

/-- Normalized (rule R79): the implicit one stands, `eexp` is meaningful and equals `uexp`. -/
def normalizedResult (sign : BitVec 1) (bexp : BitVec 8) (frac : BitVec 23) : Result :=
  { err := 0#2, cls := 2#3, sign := sign, bexp := bexp, frac := frac
    eexp := effectiveExponent bexp, eexpOk := true
    sig24 := 1#1 ++ frac, uexp := effectiveExponent bexp
    raw := packWord sign bexp frac, recon := packWord sign bexp frac }

/-- PositiveInfinity (rules R80, R92): `eexp` and `uexp` are driven as 128. -/
def posInfResult : Result :=
  { err := 0#2, cls := 3#3, sign := 0#1, bexp := 255#8, frac := 0#23, eexp := tc9 128, eexpOk := false
    sig24 := 0#24, uexp := tc9 128, raw := 0x7F800000#32, recon := 0x7F800000#32 }

/-- NegativeInfinity (rules R81, R92). -/
def negInfResult : Result :=
  { err := 0#2, cls := 4#3, sign := 1#1, bexp := 255#8, frac := 0#23, eexp := tc9 128, eexpOk := false
    sig24 := 0#24, uexp := tc9 128, raw := 0xFF800000#32, recon := 0xFF800000#32 }

/-- NaN (rules R82, R91): sign and payload are reported and kept in `recon`; no quiet or signalling
kind. -/
def nanResult (sign : BitVec 1) (frac : BitVec 23) : Result :=
  { err := 0#2, cls := 5#3, sign := sign, bexp := 255#8, frac := frac, eexp := tc9 128, eexpOk := false
    sig24 := 0#1 ++ frac, uexp := tc9 128
    raw := packWord sign 0xFF#8 frac, recon := packWord sign 0xFF#8 frac }

/-- ZERO: the DECODE of a word of class Zero (rule R77). -/
def execZero (sign : BitVec 1) (s : State) : Host.Outcome State Fault Refusal :=
  .next (loadResult (zeroResult sign) s)

/-- SUBNORMAL: the DECODE of a word of class Subnormal (rule R78). -/
def execSubnormal (sign : BitVec 1) (frac : BitVec 23) (s : State) : Host.Outcome State Fault Refusal :=
  .next (loadResult (subnormalResult sign frac) s)

/-- NORMALIZED: the DECODE of a word of class Normalized (rule R79). -/
def execNormalized (sign : BitVec 1) (bexp : BitVec 8) (frac : BitVec 23) (s : State) :
    Host.Outcome State Fault Refusal :=
  .next (loadResult (normalizedResult sign bexp frac) s)

/-- POS_INF: the DECODE of `32'h7F800000` (rule R80). -/
def execPosInf (s : State) : Host.Outcome State Fault Refusal := .next (loadResult posInfResult s)

/-- NEG_INF: the DECODE of `32'hFF800000` (rule R81). -/
def execNegInf (s : State) : Host.Outcome State Fault Refusal := .next (loadResult negInfResult s)

/-- NAN: the DECODE of a word of class NaN (rule R82). -/
def execNan (sign : BitVec 1) (frac : BitVec 23) (s : State) : Host.Outcome State Fault Refusal :=
  .next (loadResult (nanResult sign frac) s)

end Sys2Proof.Machine
end

