-- ==== Sys2Proof/Machine/Commands.lean ====
section
/-! DEFINITION. The meanings of the four commands (`30_encoding.md` rule R45). Each answers a next
state: every command completes in the cycle it is sampled (rules R75, R134). -/

namespace Sys2Proof.Machine

/-- RESET (rule R122): the other ports are ignored, and a decode in the same cycle is discarded
(rule R123). -/
def execReset (valid : Bool) (len : Nat) (data : Word) (s : State) : Host.Outcome State Fault Refusal :=
  .next (showReset valid len data s)

/-- IDLE (rule R62). -/
def execIdle (len : Nat) (data : Word) (s : State) : Host.Outcome State Fault Refusal :=
  .next (showIdle len data s)

/-- DECODE (rule R63): `valid` is 1 and every field is `decode_comb(in_data, 4)`. -/
def execDecode (data : Word) (s : State) : Host.Outcome State Fault Refusal :=
  .next (loadResult (decodeComb data 4) s)

/-- DECODE_BADLEN (rule R73): as DECODE, with `decode_comb(in_data, n)`. -/
def execDecodeBadlen (len : Nat) (data : Word) (s : State) : Host.Outcome State Fault Refusal :=
  .next (loadResult (decodeComb data len) s)

end Sys2Proof.Machine
end

