-- ==== Sys2Proof/Machine/Dispatch.lean ====
section
/-! DEFINITION. One arm per instruction. -/

namespace Sys2Proof.Machine

def exec (i : Instr) (s : State) : Host.Outcome State Fault Refusal :=
  match i with
  -- the commands (rule R45)
  | .reset valid len data => Sys2Proof.Machine.execReset valid len data s
  | .idle len data => Sys2Proof.Machine.execIdle len data s
  | .decode data => Sys2Proof.Machine.execDecode data s
  | .decodeBadlen len data => Sys2Proof.Machine.execDecodeBadlen len data s
  -- the classes (rule R54)
  | .zero sign => Sys2Proof.Machine.execZero sign s
  | .subnormal sign frac => Sys2Proof.Machine.execSubnormal sign frac s
  | .normalized sign bexp frac => Sys2Proof.Machine.execNormalized sign bexp frac s
  | .posInf => Sys2Proof.Machine.execPosInf s
  | .negInf => Sys2Proof.Machine.execNegInf s
  | .nan sign frac => Sys2Proof.Machine.execNan sign frac s

end Sys2Proof.Machine
end

