-- ==== Sys2Proof/Machine/Step.lean ====
section
/-! DEFINITION. One step (`70_reset_and_hazards.md` rule R134): one rising edge with `OUT_REG = 1`, one
settled input with `OUT_REG = 0`. -/

namespace Sys2Proof.Machine

/-- Take the bundle on the ports, select its command (rule R45), and run it. The state after the step
shows the outputs from just after the edge until the next one (rule R128).

DESIGN CHOICE (log 14, unsafe): rules R125 and R135 leave open what registers and outputs hold from power-up
until the first reset edge. The step applies rule R134 there too, to the power-up draw: an IDLE before the
first reset drops `valid`, a DECODE loads a defined result. -/
def step (s : State) : Host.Outcome State Fault Refusal :=
  exec (decodeBundle s.cfg (takeBundle s).1) (takeBundle s).2

/-- `s` with a row of the opcode table presented at the coming edge, before whatever the environment
was to present (log 2). A class row's 32 bits are presented as the DECODE of that word (log 6). -/
def State.withFetchWord (s : State) (nbits w : Nat) : State :=
  presentNext (rowBundle s.cfg.lenW nbits w) s

end Sys2Proof.Machine
end

