-- ==== Sys2Proof/Machine/CommandLines.lean ====
section
/-! DEFINITION. The spec's text for commands and results (`30_encoding.md` rules R57 to R59): what a
line presents to the block, how it is read, and how a result is written. It is a notation of the
spec, no part of the block (decision D22, log 13). -/

namespace Sys2Proof.Machine

/-- One line of rule R57, or a pseudo-command of rule R58. -/
inductive CommandLine where
  | reset
  | idle
  | decode (b0 b1 b2 b3 : Byte)
  | decodeLen (n : Nat) (b0 b1 b2 b3 : Byte)
  | bundle (c : Bundle)
  /-- `DECODE.W`, a pseudo-command. -/
  | decodeW (w : Word)
  /-- `DECODE.LEN n` with no bytes, a pseudo-command. -/
  | decodeLenOnly (n : Nat)
  /-- `NOP`, a pseudo-command. -/
  | nop
  deriving DecidableEq, Repr

/-- The expansion of the pseudo-commands (rule R58). -/
def expandLine : CommandLine → CommandLine
  | .reset                   => .reset
  | .idle                    => .idle
  | .decode b0 b1 b2 b3      => .decode b0 b1 b2 b3
  | .decodeLen n b0 b1 b2 b3 => .decodeLen n b0 b1 b2 b3
  | .bundle c                => .bundle c
  | .decodeW w               => .decode (lane w 0) (lane w 1) (lane w 2) (lane w 3)
  | .decodeLenOnly n         => .decodeLen n 0#8 0#8 0#8 0#8
  | .nop                     => .idle

/-- The bundle a line presents (rule R57): none for a length or a bundle the ports cannot show
(rule R65). -/
def lineBundle (lenW : Nat) (l : CommandLine) : Option Bundle :=
  match expandLine l with
  | .reset                   => some (bundleOf lenW ⟨true, false, 0, 0#32⟩)
  | .idle                    => some (bundleOf lenW ⟨false, false, 0, 0#32⟩)
  | .decode b0 b1 b2 b3      => some (bundleOf lenW ⟨false, true, 4, assemble b0 b1 b2 b3⟩)
  | .decodeLen n b0 b1 b2 b3 =>
      if n < 2 ^ lenW then some (bundleOf lenW ⟨false, true, n, assemble b0 b1 b2 b3⟩) else none
  | .bundle c                => if c < 2 ^ (34 + lenW) then some c else none
  | .decodeW _               => none
  | .decodeLenOnly _         => none
  | .nop                     => none

/-! ## Reading a line -/

/-- The words of a line, parted by spaces; a `;` starts a comment. `acc` is the word being read,
last character first. -/
def lineWords (acc : List Char) : List Char → List (List Char)
  | []      => if acc.isEmpty then [] else [acc.reverse]
  | c :: cs =>
    let done := if acc.isEmpty then [] else [acc.reverse]
    if c == ';' then done
    else if c == ' ' then done ++ lineWords [] cs
    else lineWords (c :: acc) cs

/-- The value of a digit in a base up to 16, capital or small letters. -/
def digitValue (base : Nat) (c : Char) : Option Nat :=
  let v :=
    if '0' ≤ c ∧ c ≤ '9' then c.toNat - 48
    else if 'A' ≤ c ∧ c ≤ 'F' then c.toNat - 55
    else if 'a' ≤ c ∧ c ≤ 'f' then c.toNat - 87
    else 16
  if v < base then some v else none

/-- The number a list of digits writes, most significant first, read onto `acc`. -/
def readDigits (base : Nat) (acc : Nat) : List Char → Option Nat
  | []      => some acc
  | c :: cs => (digitValue base c).bind fun v => readDigits base (acc * base + v) cs

/-- A decimal integer. -/
def readDecimal (cs : List Char) : Option Nat := if cs.isEmpty then none else readDigits 10 0 cs

/-- A byte: two hexadecimal digits. -/
def readByte (cs : List Char) : Option Byte :=
  if cs.length = 2 then (readDigits 16 0 cs).map (BitVec.ofNat 8) else none

/-- A sized hexadecimal number `N'h…` with as many digits as `N` bits take. -/
def readSized (bits : Nat) (cs : List Char) : Option Nat :=
  let head := Nat.toDigits 10 bits ++ ['\'', 'h']
  let digits := cs.drop head.length
  if cs.take head.length = head ∧ digits.length = (bits + 3) / 4 then readDigits 16 0 digits else none

/-- Four bytes given to a line's constructor. -/
def readBuffer (k : Byte → Byte → Byte → Byte → CommandLine) (a b c d : List Char) :
    Option CommandLine :=
  (readByte a).bind fun b0 => (readByte b).bind fun b1 => (readByte c).bind fun b2 =>
    (readByte d).map fun b3 => k b0 b1 b2 b3

/-- The line a text writes, none where it is none of rules R57 and R58. -/
def readLine (lenW : Nat) (text : List Char) : Option CommandLine :=
  match lineWords [] text with
  | [m] =>
    if m = "RESET".toList then some .reset
    else if m = "IDLE".toList then some .idle
    else if m = "NOP".toList then some .nop
    else none
  | [m, a] =>
    if m = "DECODE.W".toList then (readSized 32 a).map fun n => .decodeW (BitVec.ofNat 32 n)
    else if m = "DECODE.LEN".toList then (readDecimal a).map .decodeLenOnly
    else if m = ".BUNDLE".toList then (readSized (34 + lenW) a).map .bundle
    else none
  | [m, a, b, c, d] =>
    if m = "DECODE".toList then readBuffer .decode a b c d else none
  | [m, n, a, b, c, d] =>
    if m = "DECODE.LEN".toList then (readDecimal n).bind fun k => readBuffer (.decodeLen k) a b c d
    else none
  | _ => none

/-! ## Writing a result -/

/-- The name of a class code in rule R59's notation (rule R52). -/
def classCodeName (cls : BitVec 3) : String :=
  if cls = 0#3 then "Zero"
  else if cls = 1#3 then "Subnormal"
  else if cls = 2#3 then "Normalized"
  else if cls = 3#3 then "PositiveInfinity"
  else if cls = 4#3 then "NegativeInfinity"
  else if cls = 5#3 then "NaN"
  else if cls = 7#3 then "NONE"
  else "reserved"

/-- `n` hexadecimal digits, capital letters, after `0x`. -/
def showHex (n v : Nat) : String :=
  let ds := (Nat.toDigits 16 v).map Char.toUpper
  "0x" ++ String.ofList (List.replicate (n - ds.length) '0' ++ ds)

/-- A decimal number. -/
def showNat (n : Nat) : String := String.ofList (Nat.toDigits 10 n)

/-- A signed decimal number. -/
def showInt (i : Int) : String := if i < 0 then "-" ++ showNat i.natAbs else showNat i.natAbs

/-- A result in the notation of rule R59. -/
def showResult : Option Result → String
  | none   => "=> (no result)"
  | some r =>
    "=> err=" ++ showNat r.err.toNat ++ " cls=" ++ classCodeName r.cls
      ++ " sign=" ++ showNat r.sign.toNat ++ " bexp=" ++ showNat r.bexp.toNat
      ++ " frac=" ++ showHex 6 r.frac.toNat ++ " eexp=" ++ showInt r.eexp.toInt
      ++ " ok=" ++ showNat r.eexpOk.toNat ++ " sig24=" ++ showHex 6 r.sig24.toNat
      ++ " uexp=" ++ showInt r.uexp.toInt ++ " raw=" ++ showHex 8 r.raw.toNat
      ++ " recon=" ++ showHex 8 r.recon.toNat

end Sys2Proof.Machine
end

