-- ==== Sys2Proof/Machine/Value.lean ====
section
/-! DEFINITION. The exact values the source computes with: fracValue (`40_decode.md` rule R71) and the
reconstructed `Value` (`41_classify.md` rule R84). No port carries them; the block computes none of
them. They say what its words and its unpacked form stand for. -/

namespace Sys2Proof.Machine

/-- The domain of rule R84: signed zeros, signed infinities, NaNs with sign and payload, and the
nonzero rationals. -/
inductive Value where
  | posZero | negZero | posInf | negInf
  | nan (sign : BitVec 1) (payload : BitVec 23)
  | rat (q : ℚ)
  deriving DecidableEq, Repr

/-- An element of rule R84's set: a NaN's payload is in `1..2^23-1`, a rational is not 0. -/
def Value.inDomain : Value → Prop
  | .posZero       => True
  | .negZero       => True
  | .posInf        => True
  | .negInf        => True
  | .nan _ payload => payload ≠ 0#23
  | .rat q         => q ≠ 0

/-- `bit_i`, the i-th most significant fraction bit, `frac[23-i]` for `i = 1..23` (rule R9). -/
def fracBit (frac : BitVec 23) (i : Nat) : Bool := frac.getLsbD (23 - i)

/-- fracValue as step 5 writes it, the sum over `i = 1..23` of `bit_i * 2^(-i)` (rule R71). -/
def fracValue (frac : BitVec 23) : ℚ :=
  ((List.range 23).map fun i => if fracBit frac (i + 1) then (1 / 2 : ℚ) ^ (i + 1) else 0).sum

/-- `(-1)^sign`. -/
def signFactor (sign : BitVec 1) : ℚ := (-1) ^ sign.toNat

/-- `Value(cls, sign, bexp, frac)` (rule R84). -/
def valueOf (cls : Class) (sign : BitVec 1) (bexp : BitVec 8) (frac : BitVec 23) : Value :=
  match cls with
  | .zero             => if sign = 0#1 then .posZero else .negZero
  | .subnormal        => .rat (signFactor sign * frac.toNat * (2 : ℚ) ^ (-149 : ℤ))
  | .normalized       => .rat (signFactor sign * (2 ^ 23 + frac.toNat) * (2 : ℚ) ^ ((bexp.toNat : ℤ) - 150))
  | .positiveInfinity => .posInf
  | .negativeInfinity => .negInf
  | .nan              => .nan sign frac

/-- The reconstructed value of a word. -/
def wordValue (w : Word) : Value :=
  valueOf (classify (signOf w) (bexpOf w) (fracOf w)) (signOf w) (bexpOf w) (fracOf w)

/-- `(-1)^sign * sig24 * 2^(uexp - 23)`, what the unpacked form of a result stands for when its class
is Zero, Subnormal or Normalized (rule R89). -/
def unpackedValue (r : Result) : ℚ :=
  signFactor r.sign * r.sig24.toNat * (2 : ℚ) ^ (r.uexp.toInt - 23)

end Sys2Proof.Machine
end

