-- ==== Sys2Proof/Safety.lean ====
section
/-! DEFINITION. What a user of the block may rely on (`10_state.md` rule R23), and what a run is
(`70_reset_and_hazards.md` rule R135). -/

namespace Sys2Proof.Machine

/-- What a consumer may use of the outputs: the result while `out_valid = 1`, and nothing while it is 0
(rules R23, R59). -/
def Outputs.offered (o : Outputs) : Option Result := if o.valid then some o.res else none

/-- What a consumer may use of the outputs that a state shows. -/
def State.observed (s : State) : Option Result := s.outputs.offered

/-- The result record is one that the block writes: the reset record, the bad-length record, or the
record of the word it echoes in `raw`. -/
def Result.coherent (r : Result) : Bool :=
  r == Result.resetValue || r == decodeComb 0#32 0 || r == decodeComb r.raw 4

/-- The invariant of a block in use: its parameters are legal (rule R7), its record is one the block
writes, and a record flagged valid is a decode result, not the reset record (rule R28). -/
def State.inv (s : State) : Bool :=
  s.cfg.legal && s.res.coherent && (!s.valid || s.res != Result.resetValue)

/-- What the block must show for one bundle, by rule R134 alone: nothing for RESET and IDLE, the value
of `decode_comb` for the others. It depends on no state (rules R30, R130). -/
def bundleResult (cfg : Params) (c : Bundle) : Option Result :=
  let p := portsOf cfg.lenW c
  if cfg.outReg && p.rst then none
  else if p.inValid then some (decodeComb p.inData p.inLen)
  else none

/-- The state after `n` steps, none where a step stops. -/
def afterSteps : Nat → State → Option State
  | 0, s     => some s
  | n + 1, s =>
    match step s with
    | .next t    => afterSteps n t
    | .fault _   => none
    | .refused _ => none

/-- The observation of a run (rule R135): the values of all outputs after each of the next `n` edges,
`out_valid` and every `out_<f>`, whatever `out_valid` is. The rule's runs start after a reset edge; from a
state before the first one the values are the model's choice (log 14). -/
def observations : Nat → State → List Outputs
  | 0, _     => []
  | n + 1, s =>
    match step s with
    | .next t    => t.outputs :: observations n t
    | .fault _   => []
    | .refused _ => []

/-- What the observation offers to a consumer, edge by edge (rule R23). -/
def offeredResults (n : Nat) (s : State) : List (Option Result) :=
  (observations n s).map Outputs.offered

/-- What the result registers hold after a reset edge and then these bundles, the newest first: the value
of the latest decode, or the reset record where no decode has come since the last reset (rule R21). -/
def heldResult (cfg : Params) : List Bundle → Result
  | []         => Result.resetValue
  | c :: older =>
    let p := portsOf cfg.lenW c
    if p.rst then Result.resetValue
    else if p.inValid then decodeComb p.inData p.inLen
    else heldResult cfg older

end Sys2Proof.Machine
end

