-- ==== Sys2Proof/Certificates/Slice0/Obligations.lean ====
section
/-! DEFINITION. The statements for the provers, from the numbered rules of `spec/`. A slice of a word
is written `extractLsb'` here, and results are written as bits, so that a statement does not rest on the
model's own field and code functions. -/

open Sys2Proof Sys2Proof.Machine

/-! ## Reset and the commands -/

/-- Rule R28: every register is 0 in the state after reset, and that record is no decode result. -/
def Obligations.ResetValuesOfEveryRegister : Prop :=
  State.reset.valid = false ∧
  State.reset.res =
    { err := 0#2, cls := 0#3, sign := 0#1, bexp := 0#8, frac := 0#23, eexp := 0#9, eexpOk := false,
      sig24 := 0#24, uexp := 0#9, raw := 0#32, recon := 0#32 } ∧
  ∀ (data : Word) (len : Nat), decodeComb data len ≠ State.reset.res

/-- Rule R122: with `OUT_REG = 1`, RESET loads every register with its reset value and changes nothing
else, whatever the other ports show. -/
def Obligations.ResetCommandClearsRegisters : Prop :=
  ∀ (valid : Bool) (len : Nat) (data : Word) (s : State), s.cfg.outReg = true →
    exec (.reset valid len data) s =
      .next { s with
        valid := false
        res := { err := 0#2, cls := 0#3, sign := 0#1, bexp := 0#8, frac := 0#23, eexp := 0#9,
                 eexpOk := false, sig24 := 0#24, uexp := 0#9, raw := 0#32, recon := 0#32 } }

/-- Rule R123: a decode presented with `rst = 1` at the same edge is discarded; it gives no result and
no error. -/
def Obligations.ResetDominatesDecode : Prop :=
  ∀ (s : State) (len : Nat) (data : Word) (rest : List Bundle), s.cfg.outReg = true →
    len < 2 ^ s.cfg.lenW → s.inputs = bundleOf s.cfg.lenW ⟨true, true, len, data⟩ :: rest →
    ∃ t, step s = .next t ∧ t.observed = none ∧ t.valid = false ∧ t.res = State.reset.res ∧
      t.cfg = s.cfg ∧ t.inputs = rest ∧ t.draws = s.draws

/-- Rules R18, R124: with `OUT_REG = 0` there is nothing to reset. That a RESET term, which rule R46 never
selects there, then shows its other ports is the model's choice (log 5). -/
def Obligations.ResetTermWithoutRegister : Prop :=
  ∀ (valid : Bool) (len : Nat) (data : Word) (s : State), s.cfg.outReg = false →
    exec (.reset valid len data) s = .next { s with valid := valid, res := decodeComb data len }

/-- Rule R46: with `OUT_REG = 0`, `rst` is no part of the command and RESET is never selected. -/
def Obligations.RstIgnoredWithoutRegister : Prop :=
  ∀ (cfg : Params) (c : Bundle), cfg.outReg = false →
    (∀ valid len data, decodeBundle cfg c ≠ .reset valid len data) ∧
    decodeBundle cfg (c ^^^ 2 ^ (33 + cfg.lenW)) = decodeBundle cfg c

/-- Rule R62: IDLE drops `out_valid`. With `OUT_REG = 1` every other register keeps its value; with
`OUT_REG = 0` the result outputs follow the ports. -/
def Obligations.IdleDropsValidAndHolds : Prop :=
  ∀ (len : Nat) (data : Word) (s : State),
    (s.cfg.outReg = true → exec (.idle len data) s = .next { s with valid := false }) ∧
    (s.cfg.outReg = false →
      exec (.idle len data) s = .next { s with valid := false, res := decodeComb data len })

/-- Rule R21: through any number of edges without a command, every result register keeps its value. -/
def Obligations.ResultHeldThroughIdleEdges : Prop :=
  ∀ (cs rest : List Bundle) (s : State), s.cfg.outReg = true → s.inputs = cs ++ rest →
    (∀ c ∈ cs, c.testBit (33 + s.cfg.lenW) = false ∧ c.testBit (32 + s.cfg.lenW) = false) →
    ∃ t, afterSteps cs.length s = some t ∧ t.res = s.res ∧ (cs ≠ [] → t.valid = false) ∧
      t.cfg = s.cfg ∧ t.inputs = rest ∧ t.draws = s.draws

/-- Rules R63 to R70, R76, R85 to R88, R100: DECODE accepts every buffer, shows a result, and every field
of it is the one the rules give for the word. The frame: nothing but the output stage changes. -/
def Obligations.DecodeResultOfEveryBuffer : Prop :=
  ∀ (data : Word) (s : State),
    exec (.decode data) s =
      .next { s with
        valid := true
        res :=
          { err    := 0#2
            cls    :=
              if data.extractLsb' 23 8 = 0#8 then
                (if data.extractLsb' 0 23 = 0#23 then 0#3 else 1#3)
              else if data.extractLsb' 23 8 = 255#8 then
                (if data.extractLsb' 0 23 = 0#23 then
                  (if data.extractLsb' 31 1 = 0#1 then 3#3 else 4#3)
                 else 5#3)
              else 2#3
            sign   := data.extractLsb' 31 1
            bexp   := data.extractLsb' 23 8
            frac   := data.extractLsb' 0 23
            eexp   := BitVec.ofInt 9 ((data.extractLsb' 23 8).toNat - 127)
            eexpOk := data.extractLsb' 23 8 != 0#8 && data.extractLsb' 23 8 != 255#8
            sig24  :=
              (if data.extractLsb' 23 8 = 0#8 ∨ data.extractLsb' 23 8 = 255#8 then 0#1 else 1#1) ++
                data.extractLsb' 0 23
            uexp   :=
              if data.extractLsb' 23 8 = 0#8 then 0x182#9
              else BitVec.ofInt 9 ((data.extractLsb' 23 8).toNat - 127)
            raw    := data
            recon  := data } }

/-- Rule R73: a bad length gives `err = 1`, `cls = 7`, every other field 0, whatever the buffer. -/
def Obligations.BadLengthResult : Prop :=
  ∀ (len : Nat) (data : Word) (s : State), len ≠ 4 →
    exec (.decodeBadlen len data) s =
      .next { s with
        valid := true
        res := { err := 1#2, cls := 7#3, sign := 0#1, bexp := 0#8, frac := 0#23, eexp := 0#9,
                 eexpOk := false, sig24 := 0#24, uexp := 0#9, raw := 0#32, recon := 0#32 } }

/-! ## The classes -/

/-- Rule R77: which words are Zero, what the instruction shows, and the value. -/
def Obligations.ZeroClassResult : Prop :=
  (∀ (sign : BitVec 1) (s : State),
    exec (.zero sign) s =
      .next { s with
        valid := true
        res := { err := 0#2, cls := 0#3, sign := sign, bexp := 0#8, frac := 0#23, eexp := 0x181#9,
                 eexpOk := false, sig24 := 0#24, uexp := 0x182#9, raw := sign ++ 0#31,
                 recon := sign ++ 0#31 } }) ∧
  (∀ (data : Word) (sign : BitVec 1), decodeWord data = some (.zero sign) ↔
    data.extractLsb' 23 8 = 0#8 ∧ data.extractLsb' 0 23 = 0#23 ∧ data.extractLsb' 31 1 = sign) ∧
  wordValue 0x00000000#32 = .posZero ∧ wordValue 0x80000000#32 = .negZero

/-- Rule R78: which words are Subnormal, what the instruction shows for every fraction of the class, and the
value in both of the rule's forms. -/
def Obligations.SubnormalClassResult : Prop :=
  (∀ (sign : BitVec 1) (frac : BitVec 23) (s : State), frac ≠ 0#23 →
    exec (.subnormal sign frac) s =
      .next { s with
        valid := true
        res := { err := 0#2, cls := 1#3, sign := sign, bexp := 0#8, frac := frac, eexp := 0x181#9,
                 eexpOk := false, sig24 := 0#1 ++ frac, uexp := 0x182#9,
                 raw := sign ++ 0#8 ++ frac, recon := sign ++ 0#8 ++ frac } }) ∧
  (∀ (data : Word) (sign : BitVec 1) (frac : BitVec 23),
    decodeWord data = some (.subnormal sign frac) ↔
      data.extractLsb' 23 8 = 0#8 ∧ frac ≠ 0#23 ∧ data.extractLsb' 0 23 = frac ∧
      data.extractLsb' 31 1 = sign) ∧
  (∀ (data : Word) (sign : BitVec 1) (frac : BitVec 23),
    decodeWord data = some (.subnormal sign frac) →
      wordValue data = .rat ((-1) ^ sign.toNat * (2 : ℚ) ^ (-126 : ℤ) * fracValue frac) ∧
      wordValue data = .rat ((-1) ^ sign.toNat * frac.toNat * (2 : ℚ) ^ (-149 : ℤ)))

/-- Rule R79: which words are Normalized, what the instruction shows for every exponent of the class, and
the value in both of the rule's forms. -/
def Obligations.NormalizedClassResult : Prop :=
  (∀ (sign : BitVec 1) (bexp : BitVec 8) (frac : BitVec 23) (s : State),
    1 ≤ bexp.toNat → bexp.toNat ≤ 254 →
    exec (.normalized sign bexp frac) s =
      .next { s with
        valid := true
        res := { err := 0#2, cls := 2#3, sign := sign, bexp := bexp, frac := frac,
                 eexp := BitVec.ofInt 9 (bexp.toNat - 127), eexpOk := true, sig24 := 1#1 ++ frac,
                 uexp := BitVec.ofInt 9 (bexp.toNat - 127), raw := sign ++ bexp ++ frac,
                 recon := sign ++ bexp ++ frac } }) ∧
  (∀ (data : Word) (sign : BitVec 1) (bexp : BitVec 8) (frac : BitVec 23),
    decodeWord data = some (.normalized sign bexp frac) ↔
      1 ≤ bexp.toNat ∧ bexp.toNat ≤ 254 ∧ data.extractLsb' 23 8 = bexp ∧
      data.extractLsb' 0 23 = frac ∧ data.extractLsb' 31 1 = sign) ∧
  (∀ (data : Word) (sign : BitVec 1) (bexp : BitVec 8) (frac : BitVec 23),
    decodeWord data = some (.normalized sign bexp frac) →
      wordValue data =
        .rat ((-1) ^ sign.toNat * (2 : ℚ) ^ ((bexp.toNat : ℤ) - 127) * (1 + fracValue frac)) ∧
      wordValue data =
        .rat ((-1) ^ sign.toNat * (2 ^ 23 + frac.toNat) * (2 : ℚ) ^ ((bexp.toNat : ℤ) - 150)))

/-- Rule R80: PositiveInfinity is the word `32'h7F800000` only; `eexp` is still driven, as 128. -/
def Obligations.PosInfClassResult : Prop :=
  (∀ s : State,
    exec .posInf s =
      .next { s with
        valid := true
        res := { err := 0#2, cls := 3#3, sign := 0#1, bexp := 255#8, frac := 0#23, eexp := 0x080#9,
                 eexpOk := false, sig24 := 0#24, uexp := 0x080#9, raw := 0x7F800000#32,
                 recon := 0x7F800000#32 } }) ∧
  (∀ data : Word, decodeWord data = some .posInf ↔ data = 0x7F800000#32) ∧
  wordValue 0x7F800000#32 = .posInf

/-- Rule R81: NegativeInfinity is the word `32'hFF800000` only. -/
def Obligations.NegInfClassResult : Prop :=
  (∀ s : State,
    exec .negInf s =
      .next { s with
        valid := true
        res := { err := 0#2, cls := 4#3, sign := 1#1, bexp := 255#8, frac := 0#23, eexp := 0x080#9,
                 eexpOk := false, sig24 := 0#24, uexp := 0x080#9, raw := 0xFF800000#32,
                 recon := 0xFF800000#32 } }) ∧
  (∀ data : Word, decodeWord data = some .negInf ↔ data = 0xFF800000#32) ∧
  wordValue 0xFF800000#32 = .negInf

/-- Rule R82: which words are NaN, what the instruction shows for every fraction of the class, and the value; every sign and payload gives
the one class. -/
def Obligations.NanClassResult : Prop :=
  (∀ (sign : BitVec 1) (frac : BitVec 23) (s : State), frac ≠ 0#23 →
    exec (.nan sign frac) s =
      .next { s with
        valid := true
        res := { err := 0#2, cls := 5#3, sign := sign, bexp := 255#8, frac := frac, eexp := 0x080#9,
                 eexpOk := false, sig24 := 0#1 ++ frac, uexp := 0x080#9,
                 raw := sign ++ 0xFF#8 ++ frac, recon := sign ++ 0xFF#8 ++ frac } }) ∧
  (∀ (data : Word) (sign : BitVec 1) (frac : BitVec 23),
    decodeWord data = some (.nan sign frac) ↔
      data.extractLsb' 23 8 = 255#8 ∧ frac ≠ 0#23 ∧ data.extractLsb' 0 23 = frac ∧
      data.extractLsb' 31 1 = sign) ∧
  (∀ (data : Word) (sign : BitVec 1) (frac : BitVec 23),
    decodeWord data = some (.nan sign frac) → wordValue data = .nan sign frac)

/-- The model's choice (log 10): a class term whose operands are not of its class, and a DECODE_BADLEN term
of length 4, compute the same formulas. No decoder gives such a term. -/
def Obligations.IllFormedTermsComputeTheSameFormulas : Prop :=
  (∀ (sign : BitVec 1) (s : State),
    exec (.subnormal sign 0#23) s =
      .next { s with
        valid := true
        res := { err := 0#2, cls := 1#3, sign := sign, bexp := 0#8, frac := 0#23, eexp := 0x181#9,
                 eexpOk := false, sig24 := 0#24, uexp := 0x182#9, raw := sign ++ 0#31,
                 recon := sign ++ 0#31 } }) ∧
  (∀ (sign : BitVec 1) (bexp : BitVec 8) (frac : BitVec 23) (s : State), bexp = 0#8 ∨ bexp = 255#8 →
    exec (.normalized sign bexp frac) s =
      .next { s with
        valid := true
        res := { err := 0#2, cls := 2#3, sign := sign, bexp := bexp, frac := frac,
                 eexp := BitVec.ofInt 9 (bexp.toNat - 127), eexpOk := true, sig24 := 1#1 ++ frac,
                 uexp := BitVec.ofInt 9 (bexp.toNat - 127), raw := sign ++ bexp ++ frac,
                 recon := sign ++ bexp ++ frac } }) ∧
  (∀ (sign : BitVec 1) (s : State),
    exec (.nan sign 0#23) s =
      .next { s with
        valid := true
        res := { err := 0#2, cls := 5#3, sign := sign, bexp := 255#8, frac := 0#23, eexp := 0x080#9,
                 eexpOk := false, sig24 := 0#24, uexp := 0x080#9, raw := sign ++ 0xFF#8 ++ 0#23,
                 recon := sign ++ 0xFF#8 ++ 0#23 } }) ∧
  ∀ (data : Word) (s : State), exec (.decodeBadlen 4 data) s = exec (.decode data) s

/-- Rules R60, R63: the DECODE of any buffer is the one class instruction that the table's second stage
selects for its word, and that instruction is well-formed. -/
def Obligations.DecodeRunsItsClass : Prop :=
  ∀ (data : Word) (s : State),
    ∃ i, decodeWord data = some i ∧ i.wf s.cfg = true ∧ exec (.decode data) s = exec i s

/-- Rule R83: exactly one row of the class map selects a word, its code is the `cls` a DECODE shows, and
a DECODE never shows 6 or 7. -/
def Obligations.ExactlyOneClassSelectsEveryWord : Prop :=
  ∀ w : Word,
    (∃ r, classRows.filter (fun r => r.selects w) = [r] ∧ (decodeComb w 4).cls = classCode r.cls) ∧
    (decodeComb w 4).cls ≠ 6#3 ∧ (decodeComb w 4).cls ≠ 7#3

/-- Rule R76: the class as a function of the three fields. -/
def Obligations.ClassIsFunctionOfFields : Prop :=
  ∀ (sign : BitVec 1) (bexp : BitVec 8) (frac : BitVec 23),
    (bexp = 0#8 → frac = 0#23 → (decodeComb (sign ++ bexp ++ frac) 4).cls = 0#3) ∧
    (bexp = 0#8 → frac ≠ 0#23 → (decodeComb (sign ++ bexp ++ frac) 4).cls = 1#3) ∧
    (bexp = 255#8 → frac = 0#23 → sign = 0#1 → (decodeComb (sign ++ bexp ++ frac) 4).cls = 3#3) ∧
    (bexp = 255#8 → frac = 0#23 → sign = 1#1 → (decodeComb (sign ++ bexp ++ frac) 4).cls = 4#3) ∧
    (bexp = 255#8 → frac ≠ 0#23 → (decodeComb (sign ++ bexp ++ frac) 4).cls = 5#3) ∧
    (1 ≤ bexp.toNat → bexp.toNat ≤ 254 → (decodeComb (sign ++ bexp ++ frac) 4).cls = 2#3)

/-! ## The self-check -/

/-- Rule R98: NaN-aware equality, with `is_nan` written out. -/
def Obligations.NanAwareEqualityIsBitwiseBesideNan : Prop :=
  ∀ a b : Word, nanAwareEq a b = true ↔
    ((a.extractLsb' 23 8 = 0xFF#8 ∧ a.extractLsb' 0 23 ≠ 0#23) ∧
      (b.extractLsb' 23 8 = 0xFF#8 ∧ b.extractLsb' 0 23 ≠ 0#23)) ∨ a = b

/-- Rule R99: on any record whose `recon` and `raw` differ under that equality, the check sets `err = 2`,
keeps every other field, and the result is still shown as valid; where they agree, `err = 0`. -/
def Obligations.MismatchIsSurfacedAndKeepsFields : Prop :=
  ∀ (r : Result) (s : State),
    (nanAwareEq r.recon r.raw = false → selfCheck r = { r with err := 2#2 }) ∧
    (nanAwareEq r.recon r.raw = true → selfCheck r = { r with err := 0#2 }) ∧
    (loadResult (selfCheck r) s).valid = true ∧ (loadResult (selfCheck r) s).res = selfCheck r

/-- Rule R100: the rebuilt word is the buffer's word bit for bit, and no DECODE reports a mismatch. -/
def Obligations.ReconstructionIsBitIdentical : Prop :=
  ∀ data : Word, (decodeComb data 4).recon = data ∧ (decodeComb data 4).raw = data ∧
    (decodeComb data 4).err = 0#2

/-- Rule R101: decoding the word of any three fields and rebuilding it gives the same word, fields
included. -/
def Obligations.RoundTripOfEveryFieldTriple : Prop :=
  ∀ (sign : BitVec 1) (bexp : BitVec 8) (frac : BitVec 23),
    let r := decodeComb (sign ++ bexp ++ frac) 4
    r.sign = sign ∧ r.bexp = bexp ∧ r.frac = frac ∧ r.recon = sign ++ bexp ++ frac ∧
      nanAwareEq r.recon (sign ++ bexp ++ frac) = true

/-! ## The fields of a result -/

/-- Rule R69: the effective exponent is `bexp - 127`, exactly, for every accepted buffer. -/
def Obligations.EffectiveExponentIsExact : Prop :=
  ∀ data : Word,
    (decodeComb data 4).eexp.toInt = ((data.extractLsb' 23 8).toNat : ℤ) - 127

/-- Rule R70: `eexp_ok = 1` iff `1 <= bexp <= 254`, which is exactly when the class is Normalized. -/
def Obligations.EexpOkExactlyForNormalized : Prop :=
  ∀ data : Word,
    ((decodeComb data 4).eexpOk = true ↔
      1 ≤ (data.extractLsb' 23 8).toNat ∧ (data.extractLsb' 23 8).toNat ≤ 254) ∧
    ((decodeComb data 4).eexpOk = true ↔ (decodeComb data 4).cls = 2#3)

/-- Rules R85, R86: `hidden` is 1 iff Normalized, `sig24` is `2^23 + frac` there and `frac` for every other
class, and read as a 1.23 fixed-point number it is `hidden + fracValue`. -/
def Obligations.UnpackedSignificandValue : Prop :=
  ∀ data : Word,
    let r := decodeComb data 4
    (r.sig24.getLsbD 23 = true ↔ r.cls = 2#3) ∧
    r.sig24.toNat = (if r.cls = 2#3 then 2 ^ 23 else 0) + (data.extractLsb' 0 23).toNat ∧
    (r.sig24.toNat : ℚ) / 2 ^ 23 = (if r.cls = 2#3 then 1 else 0) + fracValue (data.extractLsb' 0 23)

/-- Rule R87: `uexp` is -126 where `bexp = 0` (Zero, Subnormal) and `bexp - 127` elsewhere: `eexp` for
Normalized, 128 for Infinity and NaN. -/
def Obligations.UnpackedExponentValue : Prop :=
  ∀ data : Word,
    let r := decodeComb data 4
    r.uexp.toInt =
      (if data.extractLsb' 23 8 = 0#8 then -126 else ((data.extractLsb' 23 8).toNat : ℤ) - 127) ∧
    (r.cls = 0#3 ∨ r.cls = 1#3 → r.uexp.toInt = -126) ∧
    (r.cls = 2#3 → r.uexp = r.eexp) ∧
    (r.cls = 3#3 ∨ r.cls = 4#3 ∨ r.cls = 5#3 → r.uexp.toInt = 128)

/-- Rule R49: the byte-wise extraction gives the fields of the assembled word. -/
def Obligations.BytewiseExtractionAgrees : Prop :=
  ∀ b0 b1 b2 b3 : Byte,
    let r := decodeComb (assemble b0 b1 b2 b3) 4
    r.sign = b3.extractLsb' 7 1 ∧
    r.bexp = b3.extractLsb' 0 7 ++ b2.extractLsb' 7 1 ∧
    r.frac = b2.extractLsb' 0 7 ++ b1 ++ b0 ∧
    bytewiseSign b0 b1 b2 b3 = r.sign ∧ bytewiseBexp b0 b1 b2 b3 = r.bexp ∧
    bytewiseFrac b0 b1 b2 b3 = r.frac

/-- Rules R32, R33: byte k stands on lanes `[8k+7:8k]`, and the word assembled from the lanes is
`in_data`. -/
def Obligations.ByteLanesAssembleToTheWord : Prop :=
  (∀ b0 b1 b2 b3 : Byte,
    lane (assemble b0 b1 b2 b3) 0 = b0 ∧ lane (assemble b0 b1 b2 b3) 1 = b1 ∧
    lane (assemble b0 b1 b2 b3) 2 = b2 ∧ lane (assemble b0 b1 b2 b3) 3 = b3) ∧
  ∀ data : Word, assemble (data.extractLsb' 0 8) (data.extractLsb' 8 8) (data.extractLsb' 16 8)
    (data.extractLsb' 24 8) = data

/-! ## Exact values -/

/-- Rule R71: the sum of step 5 is `frac / 2^23`, in `[0, 1 - 2^-23]`. -/
def Obligations.FracValueIsFracOverTwoPow23 : Prop :=
  ∀ frac : BitVec 23,
    fracValue frac = (frac.toNat : ℚ) / 2 ^ 23 ∧ 0 ≤ fracValue frac ∧
      fracValue frac ≤ 1 - (2 : ℚ) ^ (-23 : ℤ)

/-- Rule R72: fracValue is 0 exactly for `frac = 0`. -/
def Obligations.FracValueZeroIffFracZero : Prop :=
  ∀ frac : BitVec 23, fracValue frac = 0 ↔ frac = 0#23

/-- Rule R84: every word's value is in the rule's domain. -/
def Obligations.ValueLiesInItsDomain : Prop :=
  ∀ data : Word, (wordValue data).inDomain

/-- Rule R89: for Zero, Subnormal and Normalized, the unpacked outputs give the value,
`(-1)^sign * sig24 * 2^(uexp - 23)`, with -0 where the sign is 1 and `sig24 = 0`. -/
def Obligations.UnpackedFormGivesTheValue : Prop :=
  ∀ data : Word, data.extractLsb' 23 8 ≠ 255#8 →
    let r := decodeComb data 4
    let q := (-1) ^ r.sign.toNat * (r.sig24.toNat : ℚ) * (2 : ℚ) ^ (r.uexp.toInt - 23)
    unpackedValue r = q ∧
    (r.sig24 = 0#24 → wordValue data = if r.sign = 1#1 then .negZero else .posZero) ∧
    (r.sig24 ≠ 0#24 → wordValue data = .rat q)

/-- Rule R94: a subnormal's value has the scale `2^(-126)`, and `2^(eexp)` would give another value. -/
def Obligations.SubnormalScaleIsNotEexp : Prop :=
  ∀ data : Word, data.extractLsb' 23 8 = 0#8 → data.extractLsb' 0 23 ≠ 0#23 →
    let r := decodeComb data 4
    r.eexpOk = false ∧ r.eexp.toInt = -127 ∧ r.uexp.toInt = -126 ∧
    wordValue data =
      .rat ((-1) ^ r.sign.toNat * (2 : ℚ) ^ r.uexp.toInt * fracValue r.frac) ∧
    wordValue data ≠
      .rat ((-1) ^ r.sign.toNat * (2 : ℚ) ^ r.eexp.toInt * fracValue r.frac)

/-- Rule R95: the smallest and largest magnitudes of the two finite classes, each reached, and 1.0. -/
def Obligations.RangeOfFiniteValues : Prop :=
  (∀ (data : Word) (q : ℚ), wordValue data = .rat q → data.extractLsb' 23 8 = 0#8 →
    (2 : ℚ) ^ (-149 : ℤ) ≤ |q| ∧ |q| ≤ (2 ^ 23 - 1) * (2 : ℚ) ^ (-149 : ℤ)) ∧
  (∀ (data : Word) (q : ℚ), wordValue data = .rat q → data.extractLsb' 23 8 ≠ 0#8 →
    (2 : ℚ) ^ (-126 : ℤ) ≤ |q| ∧ |q| ≤ (2 ^ 24 - 1) * (2 : ℚ) ^ (104 : ℤ)) ∧
  wordValue 0x00000001#32 = .rat ((2 : ℚ) ^ (-149 : ℤ)) ∧
  wordValue 0x007FFFFF#32 = .rat ((2 ^ 23 - 1) * (2 : ℚ) ^ (-149 : ℤ)) ∧
  wordValue 0x00800000#32 = .rat ((2 : ℚ) ^ (-126 : ℤ)) ∧
  wordValue 0x7F7FFFFF#32 = .rat ((2 ^ 24 - 1) * (2 : ℚ) ^ (104 : ℤ)) ∧
  wordValue 0x3F800000#32 = .rat 1

/-- Rule R88: no two words have the same value, and the rebuilt word of a DECODE has the value of the
word decoded. So `recon` is the one word with that value. -/
def Obligations.ReconIsTheOnlyWordOfItsValue : Prop :=
  ∀ data w : Word, wordValue w = wordValue data ↔ w = (decodeComb data 4).recon

/-! ## The machine -/

/-- Rules R45, R134: a step is `exec` of the command its bundle decodes to, on the state with that bundle
taken from the presented ones; where none is listed, on a free bundle (log 2). -/
def Obligations.StepRunsTheDecodedCommand : Prop :=
  ∀ s : State,
    (∀ c rest, s.inputs = c :: rest →
      step s = exec (decodeBundle s.cfg c) { s with inputs := rest }) ∧
    (s.inputs = [] →
      step s = exec (decodeBundle s.cfg (Config.freeBundle s.draws % 2 ^ (34 + s.cfg.lenW)))
        { s with draws := s.draws + 1 })

/-- Rule R134: the step, written on the bits of the bundle: reset, hold or decode with `OUT_REG = 1`, and
the outputs as a function of the ports with `OUT_REG = 0`. -/
def Obligations.StepFollowsTheTransitionRule : Prop :=
  ∀ (s : State) (c : Bundle) (rest : List Bundle), s.inputs = c :: rest →
    let rst := c.testBit (33 + s.cfg.lenW)
    let valid := c.testBit (32 + s.cfg.lenW)
    let len := c / 2 ^ 32 % 2 ^ s.cfg.lenW
    let data := BitVec.ofNat 32 c
    step s =
      if s.cfg.outReg then
        if rst then .next { s with inputs := rest, valid := false, res := State.reset.res }
        else if valid then .next { s with inputs := rest, valid := true, res := decodeComb data len }
        else .next { s with inputs := rest, valid := false }
      else .next { s with inputs := rest, valid := valid, res := decodeComb data len }

/-- Rule R134, last sentence, and R129: from every state a step answers a next state; it takes one
presented bundle and leaves the parameters. -/
def Obligations.StepNeverStops : Prop :=
  ∀ s : State, ∃ t, step s = .next t ∧ t.cfg = s.cfg ∧ t.inputs = s.inputs.tail

/-- Rules R13, R25: every instruction completes, and changes nothing but the output stage. Where its ports
have `rst = 0`, `out_valid` is its `in_valid` (rules R18, R20). It ranges over every term: that a RESET term
with `OUT_REG = 0` completes is the model's choice (log 5), and so is that a class term whose operands are not
of its class or a DECODE_BADLEN term of length 4 completes (log 10). -/
def Obligations.EveryInstructionCompletesWithItsFrame : Prop :=
  ∀ (i : Instr) (s : State), ∃ t, exec i s = .next t ∧
    t.cfg = s.cfg ∧ t.inputs = s.inputs ∧ t.draws = s.draws ∧
    ((encodePorts i).rst = false → t.valid = (encodePorts i).inValid)

/-- The invariant of `Sys2Proof/Safety.lean` holds in the state after reset. -/
def Obligations.ResetStateMeetsTheInvariant : Prop := State.reset.inv = true

/-- Every step keeps the invariant: legal parameters, a record that the block writes, and never the reset
record under `valid = 1`. -/
def Obligations.StepKeepsTheInvariant : Prop :=
  ∀ s t : State, s.inv = true → step s = .next t → t.inv = true

/-- Rule R55: in a state that meets the invariant no output shows a reserved code, no result reports a
mismatch, and a valid result is a bad length or a full decode whose rebuilt word is its raw word. -/
def Obligations.InvariantRulesOutReservedCodes : Prop :=
  ∀ s : State, s.inv = true →
    s.res.cls ≠ 6#3 ∧ s.res.err ≠ 3#2 ∧ s.res.err ≠ 2#2 ∧
    (s.valid = true →
      (s.res.err = 1#2 ∧ s.res.cls = 7#3) ∨
      (s.res.err = 0#2 ∧ s.res.cls.toNat ≤ 5 ∧ s.res.recon = s.res.raw))

/-- Rules R125, R126: from any register contents, so from every power-up draw, one edge with `rst = 1` gives
the reset state of rule R28, and the invariant holds from there. -/
def Obligations.OneResetEdgeInitialisesAnyState : Prop :=
  (∀ (s : State) (c : Bundle) (rest : List Bundle), s.cfg.outReg = true → s.cfg.legal = true →
    s.inputs = c :: rest → c.testBit (33 + s.cfg.lenW) = true →
    ∃ t, step s = .next t ∧ t.inv = true ∧
      t = { State.reset with cfg := s.cfg, inputs := rest, draws := s.draws }) ∧
  (∀ (cfg : Params) (valid : Bool) (res : Result) (c : Bundle), cfg.outReg = true →
    c.testBit (33 + cfg.lenW) = true →
    step (presentNext c (State.powerUp cfg valid res)) = .next { State.reset with cfg := cfg })

/-- Rules R13, R27, R30: a step reads no register. Two states that differ only in their registers agree
after any step that is no IDLE, and with `OUT_REG = 0` after every step. -/
def Obligations.StepReadsNoRegister : Prop :=
  ∀ (s : State) (valid : Bool) (res : Result) (c : Bundle) (rest : List Bundle),
    s.inputs = c :: rest →
    s.cfg.outReg = false ∨ c.testBit (33 + s.cfg.lenW) = true ∨ c.testBit (32 + s.cfg.lenW) = true →
    step { s with valid := valid, res := res } = step s

/-- Rules R41, R130: over any sequence of bundles, from any state, the observed results are those of the
bundles one by one, each as if presented alone: in order, none dropped, none duplicated. -/
def Obligations.ResultsComeInOrderAsIfAlone : Prop :=
  ∀ (cs rest : List Bundle) (s : State), s.inputs = cs ++ rest →
    offeredResults cs.length s = cs.map (bundleResult s.cfg)

/-- Rules R21, R134, R135: the observation of a run that starts right after a reset edge, every output after
every edge. `out_valid` is 1 exactly where the edge's own bundle is a decode, and the fields show the latest
decode since the last reset, or the reset record, also while `out_valid` is 0. -/
def Obligations.ObservationOfARunFromReset : Prop :=
  ∀ (cfg : Params) (cs rest : List Bundle) (draws : Nat), cfg.outReg = true →
    let obs := observations cs.length
      { State.reset with cfg := cfg, inputs := cs ++ rest, draws := draws }
    obs.length = cs.length ∧
    ∀ (older newer : List Bundle) (c : Bundle), cs = older ++ c :: newer →
      obs[older.length]? =
        some { valid := (bundleResult cfg c).isSome, res := heldResult cfg (c :: older.reverse) }

/-- Rules R18, R134: with `OUT_REG = 0` the observation is, input by input, `out_valid = in_valid` and every
field of `decode_comb` of that input alone, whatever the state. -/
def Obligations.ObservationWithoutRegister : Prop :=
  ∀ (cs rest : List Bundle) (s : State), s.cfg.outReg = false → s.inputs = cs ++ rest →
    observations cs.length s =
      cs.map (fun c =>
        { valid := c.testBit (32 + s.cfg.lenW)
          res := decodeComb (BitVec.ofNat 32 c) (c / 2 ^ 32 % 2 ^ s.cfg.lenW) })

/-- Rule R135, first sentence: the block never halts. For every number of edges, from every state, the run
reaches a state, every edge has its output values, and the last ones are those of the state reached. -/
def Obligations.BlockNeverHalts : Prop :=
  ∀ (n : Nat) (s : State), ∃ t, afterSteps n s = some t ∧ (observations n s).length = n ∧
    (0 < n → (observations n s).getLast? = some t.outputs) ∧
    t.cfg = s.cfg ∧ t.inputs = s.inputs.drop n

/-! ## Encodings -/

/-- Decode and encode agree: every well-formed instruction, with every operand the encoding admits, is
decoded from its bytes, for every legal `LEN_W` and both values of `OUT_REG`. -/
def Obligations.DecodeOfEncodeIsTheInstruction : Prop :=
  ∀ (cfg : Params) (i : Instr), cfg.legal = true → i.wf cfg = true →
    decodeBytes cfg (encode cfg i) = .ok i

/-- Rule R45: every bundle selects a command. That its term is well-formed and gives the whole bundle back
rests on the model's choice (log 7) to keep the port bits a command ignores as operands of its term. -/
def Obligations.EveryBundleIsOneCommand : Prop :=
  ∀ (cfg : Params) (c : Bundle), cfg.outReg = true → cfg.legal = true →
    c < 2 ^ (34 + cfg.lenW) →
    (decodeBundle cfg c).wf cfg = true ∧ encodeBundle cfg (decodeBundle cfg c) = c

/-- Rule R44: where the four ports stand in the bundle, for every `LEN_W`. -/
def Obligations.BundleFieldLayout : Prop :=
  ∀ (lenW : Nat) (p : Ports), p.inLen < 2 ^ lenW →
    (bundleOf lenW p).testBit (33 + lenW) = p.rst ∧
    (bundleOf lenW p).testBit (32 + lenW) = p.inValid ∧
    bundleOf lenW p / 2 ^ 32 % 2 ^ lenW = p.inLen ∧
    bundleOf lenW p % 2 ^ 32 = p.inData.toNat ∧
    bundleOf lenW p < 2 ^ (34 + lenW) ∧ portsOf lenW (bundleOf lenW p) = p

/-- Rule R45: which bundles select which command, first match wins (`OUT_REG = 1`). -/
def Obligations.CommandSelection : Prop :=
  ∀ (cfg : Params) (c : Bundle), cfg.outReg = true →
    let rst := c.testBit (33 + cfg.lenW)
    let valid := c.testBit (32 + cfg.lenW)
    let len := c / 2 ^ 32 % 2 ^ cfg.lenW
    let data := BitVec.ofNat 32 c
    (rst = true → decodeBundle cfg c = .reset valid len data) ∧
    (rst = false → valid = false → decodeBundle cfg c = .idle len data) ∧
    (rst = false → valid = true → len = 4 → decodeBundle cfg c = .decode data) ∧
    (rst = false → valid = true → len ≠ 4 → decodeBundle cfg c = .decodeBadlen len data)

/-- Words of `95_test_vectors.md` and of the opcode table decode to the rows they stand for. -/
def Obligations.SpecWordsDecodeToTheirRows : Prop :=
  decodeTableWord 40 0x1000000000 = some (.reset false 0 0#32) ∧
  decodeTableWord 40 0x1C3F800000 = some (.reset true 4 0x3F800000#32) ∧
  decodeTableWord 40 0x043F800000 = some (.idle 4 0x3F800000#32) ∧
  decodeTableWord 40 0x0C3F800000 = some (.decode 0x3F800000#32) ∧
  decodeTableWord 40 0x0B3F800000 = some (.decodeBadlen 3 0x3F800000#32) ∧
  decodeTableWord 32 0x80000000 = some (.zero 1#1) ∧
  decodeTableWord 32 0x00000001 = some (.subnormal 0#1 1#23) ∧
  decodeTableWord 32 0xC0490FDB = some (.normalized 1#1 128#8 0x490FDB#23) ∧
  decodeTableWord 32 0x7F800000 = some .posInf ∧
  decodeTableWord 32 0xFF800000 = some .negInf ∧
  decodeTableWord 32 0x7FC00000 = some (.nan 0#1 0x400000#23)

/-- The decoder rejects by name every list of bytes that is neither a buffer nor a bundle. That a bundle
stands in bytes at all is the model's choice (log 8). -/
def Obligations.OtherByteListsAreRejected : Prop :=
  ∀ (cfg : Params) (bs : List Byte), cfg.legal = true → bs.length ≠ 4 →
    (bs.length ≠ bundleBytes cfg.lenW → decodeBytes cfg bs = .error .wrongByteCount) ∧
    (bs.length = bundleBytes cfg.lenW → 2 ^ (34 + cfg.lenW) ≤ natOfBytes bs →
      decodeBytes cfg bs = .error .bitAboveBundle) ∧
    (bs.length = bundleBytes cfg.lenW → natOfBytes bs < 2 ^ (34 + cfg.lenW) →
      decodeBytes cfg bs = .ok (decodeBundle cfg (natOfBytes bs)))

/-- The next step runs a table row that is presented: a class row as the DECODE of its word, on any
block (the model's choice, log 6), a command row as its bundle, on the spec's own block. -/
def Obligations.PresentedTableRowRunsNext : Prop :=
  (∀ (s : State) (w : Nat), s.cfg.legal = true → w < 2 ^ 32 →
    ∃ i, decodeTableWord 32 w = some i ∧ step (s.withFetchWord 32 w) = exec i s) ∧
  (∀ (s : State) (w : Nat), s.cfg = Params.default → w < 2 ^ 37 →
    ∃ i, decodeTableWord 40 w = some i ∧ step (s.withFetchWord 40 w) = exec i s)

/-- Rule R57: the command that each line of the text syntax presents (`OUT_REG = 1`). -/
def Obligations.CommandLinesPresentTheirCommands : Prop :=
  ∀ (cfg : Params) (n : Nat) (b0 b1 b2 b3 : Byte) (c : Bundle), cfg.outReg = true →
    cfg.legal = true →
    (lineBundle cfg.lenW .reset).map (decodeBundle cfg) = some (.reset false 0 0#32) ∧
    (lineBundle cfg.lenW .idle).map (decodeBundle cfg) = some (.idle 0 0#32) ∧
    (lineBundle cfg.lenW (.decode b0 b1 b2 b3)).map (decodeBundle cfg) =
      some (.decode (b3 ++ b2 ++ b1 ++ b0)) ∧
    (n < 2 ^ cfg.lenW → n = 4 →
      (lineBundle cfg.lenW (.decodeLen n b0 b1 b2 b3)).map (decodeBundle cfg) =
        some (.decode (b3 ++ b2 ++ b1 ++ b0))) ∧
    (n < 2 ^ cfg.lenW → n ≠ 4 →
      (lineBundle cfg.lenW (.decodeLen n b0 b1 b2 b3)).map (decodeBundle cfg) =
        some (.decodeBadlen n (b3 ++ b2 ++ b1 ++ b0))) ∧
    (2 ^ cfg.lenW ≤ n → lineBundle cfg.lenW (.decodeLen n b0 b1 b2 b3) = none) ∧
    (c < 2 ^ (34 + cfg.lenW) → lineBundle cfg.lenW (.bundle c) = some c)

/-- Rule R58: the pseudo-commands present what their expansions present. -/
def Obligations.PseudoCommandsExpand : Prop :=
  ∀ (lenW n : Nat) (w : Word),
    lineBundle lenW (.decodeW w) =
      lineBundle lenW (.decode (w.extractLsb' 0 8) (w.extractLsb' 8 8) (w.extractLsb' 16 8)
        (w.extractLsb' 24 8)) ∧
    lineBundle lenW (.decodeLenOnly n) = lineBundle lenW (.decodeLen n 0#8 0#8 0#8 0#8) ∧
    lineBundle lenW .nop = lineBundle lenW .idle
end

