-- ==== Sys2Proof/Laws/Decode.lean ====
section
/-! SUPPORT. The fields of a word, and bytes as numbers. -/

namespace Sys2Proof

/-! ## Shift and mask are the slices of rule R47 -/

theorem signOf_eq_slice (w : Word) : signOf w = w.extractLsb' 31 1 := by
  apply BitVec.eq_of_getLsbD_eq
  intro i hi
  have : i = 0 := by omega
  subst this
  simp [signOf]

theorem bexpOf_eq_slice (w : Word) : bexpOf w = w.extractLsb' 23 8 := by
  apply BitVec.eq_of_getLsbD_eq
  intro i hi
  have hm : (0xFF#8).getLsbD i = true := by
    interval_cases i <;> decide
  simp_all [bexpOf, BitVec.getLsbD_eq_getElem]

theorem fracOf_eq_slice (w : Word) : fracOf w = w.extractLsb' 0 23 := by
  apply BitVec.eq_of_getLsbD_eq
  intro i hi
  have hm : (0x7FFFFF#23).getLsbD i = true := by
    interval_cases i <;> decide
  simp_all [fracOf, BitVec.getLsbD_eq_getElem]

theorem packWord_getLsbD (sign : BitVec 1) (bexp : BitVec 8) (frac : BitVec 23) (i : Nat) :
    (packWord sign bexp frac).getLsbD i =
      if i < 23 then frac.getLsbD i
      else if i < 31 then bexp.getLsbD (i - 23) else sign.getLsbD (i - 31) := by
  show ((sign ++ bexp) ++ frac : BitVec (1 + 8 + 23)).getLsbD i = _
  rw [BitVec.getLsbD_append, BitVec.getLsbD_append]
  by_cases h : i < 23
  · simp [h]
  · by_cases h' : i < 31
    · have : i - 23 < 8 := by omega
      simp [h, h', this]
    · have h1 : ¬ i - 23 < 8 := by omega
      have h2 : i - 23 - 8 = i - 31 := by omega
      simp [h, h', h1, h2]

@[simp] theorem signOf_packWord (sign : BitVec 1) (bexp : BitVec 8) (frac : BitVec 23) :
    signOf (packWord sign bexp frac) = sign := by
  rw [signOf_eq_slice]
  apply BitVec.eq_of_getLsbD_eq
  intro i hi
  have : i = 0 := by omega
  subst this
  rw [BitVec.getLsbD_extractLsb', packWord_getLsbD]
  simp

@[simp] theorem bexpOf_packWord (sign : BitVec 1) (bexp : BitVec 8) (frac : BitVec 23) :
    bexpOf (packWord sign bexp frac) = bexp := by
  rw [bexpOf_eq_slice]
  apply BitVec.eq_of_getLsbD_eq
  intro i hi
  have h : 23 + i < 31 := by omega
  simp [packWord_getLsbD, hi, h]

@[simp] theorem fracOf_packWord (sign : BitVec 1) (bexp : BitVec 8) (frac : BitVec 23) :
    fracOf (packWord sign bexp frac) = frac := by
  rw [fracOf_eq_slice]
  apply BitVec.eq_of_getLsbD_eq
  intro i hi
  simp [packWord_getLsbD, hi]

/-- A word is its three fields (rule R47). -/
theorem packWord_fields (w : Word) : packWord (signOf w) (bexpOf w) (fracOf w) = w := by
  apply BitVec.eq_of_getLsbD_eq
  intro i hi
  rw [packWord_getLsbD, signOf_eq_slice, bexpOf_eq_slice, fracOf_eq_slice]
  by_cases h : i < 23
  · simp [h]
  · by_cases h' : i < 31
    · have h1 : i - 23 < 8 := by omega
      have h2 : 23 + (i - 23) = i := by omega
      simp [h, h', h1, h2]
    · have h1 : i = 31 := by omega
      subst h1
      simp

/-! ## Masks of the class map -/

/-- `raw & 32'h7F800000` keeps exactly the exponent field. -/
theorem and_expMask (w : Word) : w &&& 0x7F800000#32 = packWord 0#1 (bexpOf w) 0#23 := by
  conv_lhs => rw [← packWord_fields w]
  apply BitVec.eq_of_getLsbD_eq
  intro i hi
  rw [BitVec.getLsbD_and, packWord_getLsbD, packWord_getLsbD]
  have hm : (0x7F800000#32).getLsbD i = (decide (23 ≤ i) && decide (i < 31)) := by
    interval_cases i <;> decide
  rw [hm]
  by_cases h : i < 23
  · simp [h]
  · have h23 : 23 ≤ i := by omega
    by_cases h' : i < 31 <;> simp [h, h', h23]

/-- `raw & 32'h7FFFFFFF` drops exactly the sign. -/
theorem and_magnitudeMask (w : Word) : w &&& 0x7FFFFFFF#32 = packWord 0#1 (bexpOf w) (fracOf w) := by
  conv_lhs => rw [← packWord_fields w]
  apply BitVec.eq_of_getLsbD_eq
  intro i hi
  rw [BitVec.getLsbD_and, packWord_getLsbD, packWord_getLsbD]
  have hm : (0x7FFFFFFF#32).getLsbD i = decide (i < 31) := by
    interval_cases i <;> decide
  rw [hm]
  by_cases h : i < 23
  · have : i < 31 := by omega
    simp [h, this]
  · by_cases h' : i < 31 <;> simp [h, h']

/-- Two words with the same fields are equal, and only they. -/
theorem packWord_inj {sign sign' : BitVec 1} {bexp bexp' : BitVec 8} {frac frac' : BitVec 23} :
    packWord sign bexp frac = packWord sign' bexp' frac' ↔
      sign = sign' ∧ bexp = bexp' ∧ frac = frac' := by
  constructor
  · intro h
    exact ⟨by simpa using congrArg signOf h, by simpa using congrArg bexpOf h,
      by simpa using congrArg fracOf h⟩
  · rintro ⟨rfl, rfl, rfl⟩; rfl

/-! ## Byte lanes -/

/-- Assembling the four lanes is the identity wiring of rule R33. -/
@[simp] theorem rawBits_eq (data : Word) : Machine.rawBits data = data := by
  apply BitVec.eq_of_getLsbD_eq
  intro i hi
  show (((lane data 3 ++ lane data 2) ++ lane data 1) ++ lane data 0 : BitVec (8 + 8 + 8 + 8)).getLsbD i = _
  simp only [BitVec.getLsbD_append, lane]
  interval_cases i <;> simp

/-! ## Bytes as numbers -/

@[simp] theorem bytesOfNat_length (n w : Nat) : (bytesOfNat n w).length = n := by
  induction n generalizing w with
  | zero => rfl
  | succ n ih => simp [bytesOfNat, ih]

theorem natOfBytes_bytesOfNat (n w : Nat) : natOfBytes (bytesOfNat n w) = w % 256 ^ n := by
  induction n generalizing w with
  | zero => simp [bytesOfNat, natOfBytes, Nat.mod_one]
  | succ n ih =>
    have h256 : 256 ^ (n + 1) = 256 * 256 ^ n := by rw [Nat.pow_succ, Nat.mul_comm]
    rw [h256, Nat.mod_mul, bytesOfNat, natOfBytes, ih, BitVec.toNat_ofNat]

end Sys2Proof
end

