-- ==== Sys2Proof/Laws/State.lean ====
section
/-! SUPPORT. What each operation on State does to each field, so that no proof unfolds a record update. -/

namespace Sys2Proof.Machine

/-! `loadResult` -/

@[simp] theorem loadResult_cfg (r : Result) (s : State) : (loadResult r s).cfg = s.cfg := rfl
@[simp] theorem loadResult_valid (r : Result) (s : State) : (loadResult r s).valid = true := rfl
@[simp] theorem loadResult_res (r : Result) (s : State) : (loadResult r s).res = r := rfl
@[simp] theorem loadResult_inputs (r : Result) (s : State) : (loadResult r s).inputs = s.inputs := rfl
@[simp] theorem loadResult_draws (r : Result) (s : State) : (loadResult r s).draws = s.draws := rfl

/-! `showIdle`: one rule for both realisations, and the result by realisation. -/

@[simp] theorem showIdle_cfg (len : Nat) (data : Word) (s : State) :
    (showIdle len data s).cfg = s.cfg := by unfold showIdle; split <;> rfl

@[simp] theorem showIdle_valid (len : Nat) (data : Word) (s : State) :
    (showIdle len data s).valid = false := by unfold showIdle; split <;> rfl

@[simp] theorem showIdle_inputs (len : Nat) (data : Word) (s : State) :
    (showIdle len data s).inputs = s.inputs := by unfold showIdle; split <;> rfl

@[simp] theorem showIdle_draws (len : Nat) (data : Word) (s : State) :
    (showIdle len data s).draws = s.draws := by unfold showIdle; split <;> rfl

theorem showIdle_res (len : Nat) (data : Word) (s : State) :
    (showIdle len data s).res = if s.cfg.outReg then s.res else decodeComb data len := by
  unfold showIdle; split <;> rfl

/-! `showReset` -/

@[simp] theorem showReset_cfg (valid : Bool) (len : Nat) (data : Word) (s : State) :
    (showReset valid len data s).cfg = s.cfg := by unfold showReset; split <;> rfl

theorem showReset_valid (valid : Bool) (len : Nat) (data : Word) (s : State) :
    (showReset valid len data s).valid = (!s.cfg.outReg && valid) := by
  unfold showReset; split <;> simp_all

theorem showReset_res (valid : Bool) (len : Nat) (data : Word) (s : State) :
    (showReset valid len data s).res =
      if s.cfg.outReg then Result.resetValue else decodeComb data len := by
  unfold showReset; split <;> rfl

@[simp] theorem showReset_inputs (valid : Bool) (len : Nat) (data : Word) (s : State) :
    (showReset valid len data s).inputs = s.inputs := by unfold showReset; split <;> rfl

@[simp] theorem showReset_draws (valid : Bool) (len : Nat) (data : Word) (s : State) :
    (showReset valid len data s).draws = s.draws := by unfold showReset; split <;> rfl

/-! `State.outputs` -/

@[simp] theorem State.outputs_valid (s : State) : s.outputs.valid = s.valid := rfl
@[simp] theorem State.outputs_res (s : State) : s.outputs.res = s.res := rfl

/-! `takeBundle` and `presentNext` -/

theorem takeBundle_cons (s : State) (c : Bundle) (rest : List Bundle) (h : s.inputs = c :: rest) :
    takeBundle s = (c, { s with inputs := rest }) := by unfold takeBundle; rw [h]

theorem takeBundle_nil (s : State) (h : s.inputs = []) :
    takeBundle s =
      (Config.freeBundle s.draws % 2 ^ (34 + s.cfg.lenW), { s with draws := s.draws + 1 }) := by
  unfold takeBundle; rw [h]

@[simp] theorem takeBundle_cfg (s : State) : (takeBundle s).2.cfg = s.cfg := by
  unfold takeBundle; split <;> rfl

@[simp] theorem takeBundle_valid (s : State) : (takeBundle s).2.valid = s.valid := by
  unfold takeBundle; split <;> rfl

@[simp] theorem takeBundle_res (s : State) : (takeBundle s).2.res = s.res := by
  unfold takeBundle; split <;> rfl

@[simp] theorem takeBundle_inputs (s : State) : (takeBundle s).2.inputs = s.inputs.tail := by
  unfold takeBundle; split <;> simp_all

@[simp] theorem takeBundle_presentNext (c : Bundle) (s : State) :
    takeBundle (presentNext c s) = (c, s) := rfl

@[simp] theorem presentNext_cfg (c : Bundle) (s : State) : (presentNext c s).cfg = s.cfg := rfl
@[simp] theorem presentNext_valid (c : Bundle) (s : State) : (presentNext c s).valid = s.valid := rfl
@[simp] theorem presentNext_res (c : Bundle) (s : State) : (presentNext c s).res = s.res := rfl
@[simp] theorem presentNext_draws (c : Bundle) (s : State) : (presentNext c s).draws = s.draws := rfl
@[simp] theorem presentNext_inputs (c : Bundle) (s : State) :
    (presentNext c s).inputs = c :: s.inputs := rfl

end Sys2Proof.Machine
end

