-- ==== Sys2Proof/Laws/Ops.lean ====
section
/-! SUPPORT. What each shared operation can do, said once: the classes, the self-check, `decode_comb`,
and the step. -/

namespace Sys2Proof.Machine

/-! ## Classes -/

theorem bit_eq_zero_or_one (b : BitVec 1) : b = 0#1 ∨ b = 1#1 := by
  revert b; decide

/-- The one class of three fields, by cases (rule R83). -/
theorem classify_cases (sign : BitVec 1) (bexp : BitVec 8) (frac : BitVec 23) :
    (classify sign bexp frac = .zero ∧ bexp = 0#8 ∧ frac = 0#23) ∨
    (classify sign bexp frac = .subnormal ∧ bexp = 0#8 ∧ frac ≠ 0#23) ∨
    (classify sign bexp frac = .positiveInfinity ∧ bexp = 255#8 ∧ frac = 0#23 ∧ sign = 0#1) ∨
    (classify sign bexp frac = .negativeInfinity ∧ bexp = 255#8 ∧ frac = 0#23 ∧ sign = 1#1) ∨
    (classify sign bexp frac = .nan ∧ bexp = 255#8 ∧ frac ≠ 0#23) ∨
    (classify sign bexp frac = .normalized ∧ bexp ≠ 0#8 ∧ bexp ≠ 255#8) := by
  have h255 : (255#8) ≠ 0#8 := by decide
  by_cases h0 : bexp = 0#8
  · by_cases hf : frac = 0#23
    · exact .inl ⟨by simp [classify, h0, hf], h0, hf⟩
    · exact .inr (.inl ⟨by simp [classify, h0, hf], h0, hf⟩)
  · by_cases h1 : bexp = 255#8
    · by_cases hf : frac = 0#23
      · rcases bit_eq_zero_or_one sign with hs | hs
        · exact .inr (.inr (.inl ⟨by simp [classify, h1, hf, hs], h1, hf, hs⟩))
        · exact .inr (.inr (.inr (.inl ⟨by simp [classify, h1, hf, hs], h1, hf, hs⟩)))
      · exact .inr (.inr (.inr (.inr (.inl ⟨by simp [classify, h1, hf], h1, hf⟩))))
    · exact .inr (.inr (.inr (.inr (.inr ⟨by simp [classify, h0, h1], h0, h1⟩))))

/-- An exponent is neither all zeros nor all ones exactly in the range 1..254 (rule R70). -/
theorem bexp_normal_iff (b : BitVec 8) : (b ≠ 0#8 ∧ b ≠ 255#8) ↔ 1 ≤ b.toNat ∧ b.toNat ≤ 254 := by
  have hb := b.isLt
  constructor
  · rintro ⟨h0, h255⟩
    constructor
    · by_contra h
      exact h0 (BitVec.eq_of_toNat_eq (by simp; omega))
    · by_contra h
      exact h255 (BitVec.eq_of_toNat_eq (by simp; omega))
  · rintro ⟨h1, h2⟩
    constructor <;> rintro rfl <;> simp at h1 h2

/-! ## Exponents and significands as numbers -/

/-- Nine bits hold `bexp - 127` exactly (rules R69, R74). -/
theorem effectiveExponent_toInt (bexp : BitVec 8) :
    (effectiveExponent bexp).toInt = (bexp.toNat : Int) - 127 := by
  have hb := bexp.isLt
  unfold effectiveExponent tc9 Config.BIAS
  rw [BitVec.toInt_ofInt, Int.bmod_eq_of_le] <;> norm_num <;> omega

/-- `{hidden, frac}` as a number (rule R86). -/
theorem hidden_append_toNat (hidden : BitVec 1) (frac : BitVec 23) :
    (hidden ++ frac : BitVec 24).toNat = 2 ^ 23 * hidden.toNat + frac.toNat := by
  have happ := BitVec.toNat_append hidden frac
  rw [Nat.shiftLeft_eq, Nat.mul_comm, ← Nat.two_pow_add_eq_or_of_lt frac.isLt] at happ
  exact happ

/-! ## Errors and the self-check -/

@[simp] theorem report_err (e : ErrorTag) (r : Result) : (report e r).err = errorCode e := rfl

theorem nanAwareEq_refl (w : Word) : nanAwareEq w w = true := by simp [nanAwareEq]

/-- A self-check that holds reports no error. -/
theorem selfCheck_of_eq {r : Result} (h : r.recon = r.raw) : selfCheck r = report .none r := by
  simp [selfCheck, h, nanAwareEq_refl]

/-- The bad-length record: nothing of the buffer is in it (rules R73, R102). -/
theorem decodeComb_badlen {len : Nat} (h : len ≠ 4) (data : Word) :
    decodeComb data len = report .invalidInputLength undecoded := by simp [decodeComb, h]

/-- An accepted buffer is decoded and checked (rule R64). -/
theorem decodeComb_four (data : Word) : decodeComb data 4 = selfCheck (decodeFields data) := by
  simp [decodeComb]

/-! ## The step -/

/-- A step with a bundle presented runs its command on the state with the bundle taken. -/
theorem step_cons (s : State) (c : Bundle) (rest : List Bundle) (h : s.inputs = c :: rest) :
    step s = exec (decodeBundle s.cfg c) { s with inputs := rest } := by
  simp only [step, takeBundle_cons s c rest h]

/-- The command of a bundle is one of four, each with its condition on the ports (rules R45, R46). -/
theorem decodeBundle_cases (cfg : Params) (c : Bundle) :
    let p := portsOf cfg.lenW c
    (decodeBundle cfg c = .reset p.inValid p.inLen p.inData ∧ cfg.outReg = true ∧ p.rst = true) ∨
    (decodeBundle cfg c = .idle p.inLen p.inData ∧ ¬(cfg.outReg = true ∧ p.rst = true) ∧
      p.inValid = false) ∨
    (decodeBundle cfg c = .decode p.inData ∧ ¬(cfg.outReg = true ∧ p.rst = true) ∧
      p.inValid = true ∧ p.inLen = 4) ∨
    (decodeBundle cfg c = .decodeBadlen p.inLen p.inData ∧ ¬(cfg.outReg = true ∧ p.rst = true) ∧
      p.inValid = true ∧ p.inLen ≠ 4) := by
  intro p
  have hd : decodeBundle cfg c = selectCommand cfg.outReg p := rfl
  rw [hd]
  unfold selectCommand
  by_cases h : cfg.outReg = true ∧ p.rst = true
  · exact .inl ⟨by simp [h], h⟩
  · have h' : (cfg.outReg && p.rst) = false := by simpa using h
    by_cases hv : p.inValid = true
    · by_cases h4 : p.inLen = 4
      · exact .inr (.inr (.inl ⟨by simp [h', hv, h4], h, hv, h4⟩))
      · exact .inr (.inr (.inr ⟨by simp [h', hv, h4], h, hv, h4⟩))
    · have hv' : p.inValid = false := by simpa using hv
      exact .inr (.inl ⟨by simp [h', hv'], h, hv'⟩)

end Sys2Proof.Machine
end

