-- ==== Sys2Proof/Laws/PerInstr.lean ====
section
/-! SUPPORT. Facts about every instruction as a term, one lemma per constructor. -/

namespace Sys2Proof.Laws.EncodedLength

/-- An instruction's bytes are as many as its row's format has: 4 for a class row (a buffer, rule
R38), the bytes of a bundle for a command row (rule R43). -/
def Statement (i : Instr) : Prop :=
  ∀ cfg : Params, (encode cfg i).length =
    match i with
    | .reset _ _ _      => bundleBytes cfg.lenW
    | .idle _ _         => bundleBytes cfg.lenW
    | .decode _         => bundleBytes cfg.lenW
    | .decodeBadlen _ _ => bundleBytes cfg.lenW
    | .zero _           => 4
    | .subnormal _ _    => 4
    | .normalized _ _ _ => 4
    | .posInf           => 4
    | .negInf           => 4
    | .nan _ _          => 4

theorem reset (valid : Bool) (len : Nat) (data : Word) : Statement (.reset valid len data) :=
  fun cfg => bytesOfNat_length (bundleBytes cfg.lenW) _

theorem idle (len : Nat) (data : Word) : Statement (.idle len data) :=
  fun cfg => bytesOfNat_length (bundleBytes cfg.lenW) _

theorem decode (data : Word) : Statement (.decode data) :=
  fun cfg => bytesOfNat_length (bundleBytes cfg.lenW) _

theorem decodeBadlen (len : Nat) (data : Word) : Statement (.decodeBadlen len data) :=
  fun cfg => bytesOfNat_length (bundleBytes cfg.lenW) _

theorem zero (sign : BitVec 1) : Statement (.zero sign) := fun _ => rfl

theorem subnormal (sign : BitVec 1) (frac : BitVec 23) : Statement (.subnormal sign frac) :=
  fun _ => rfl

theorem normalized (sign : BitVec 1) (bexp : BitVec 8) (frac : BitVec 23) :
    Statement (.normalized sign bexp frac) := fun _ => rfl

theorem posInf : Statement .posInf := fun _ => rfl

theorem negInf : Statement .negInf := fun _ => rfl

theorem nan (sign : BitVec 1) (frac : BitVec 23) : Statement (.nan sign frac) := fun _ => rfl

end Sys2Proof.Laws.EncodedLength
end

