-- ==== Sys2Proof/Tests/Slice0.lean ====
section
/-! SUPPORT. Small tests. Expected results are the spec's own: `95_test_vectors.md` (V, X, K, E and P
rows), or words written out from `30_encoding.md` rules R44 and R47. -/

open Sys2Proof Sys2Proof.Machine

namespace Sys2Proof.Tests

/-- The spec's own block after reset, with bundles presented. -/
def fed (cs : List Bundle) : State := { State.reset with inputs := cs }

/-- The same with `OUT_REG = 0`. -/
def fedComb (cs : List Bundle) : State :=
  { State.reset with cfg := { outReg := false, lenW := 3 }, inputs := cs }

/-! ## Well-formedness: one ill-formed term per check -/

theorem test_wf_refuses_long_reset_length : Instr.wf Params.default (.reset false 8 0#32) = false := by decide
theorem test_wf_refuses_reset_without_register :
    Instr.wf { outReg := false, lenW := 3 } (.reset false 0 0#32) = false := by decide
theorem test_wf_refuses_long_idle_length : Instr.wf Params.default (.idle 8 0#32) = false := by decide
theorem test_wf_refuses_long_bad_length : Instr.wf Params.default (.decodeBadlen 8 0#32) = false := by decide
theorem test_wf_refuses_bad_length_four : Instr.wf Params.default (.decodeBadlen 4 0#32) = false := by decide
theorem test_wf_refuses_subnormal_zero : Instr.wf Params.default (.subnormal 0#1 0#23) = false := by decide
theorem test_wf_refuses_normalized_zero_exponent :
    Instr.wf Params.default (.normalized 0#1 0#8 1#23) = false := by decide
theorem test_wf_refuses_normalized_full_exponent :
    Instr.wf Params.default (.normalized 0#1 255#8 1#23) = false := by decide
theorem test_wf_refuses_nan_without_payload : Instr.wf Params.default (.nan 0#1 0#23) = false := by decide
theorem test_params_refuse_narrow_length_port : Params.legal { outReg := true, lenW := 2 } = false := by decide

/-! ## Decoding: each row from a word written out bit by bit

A bundle is `rst | in_valid | in_len | in_data` (rule R44), a word `sign | bexp | frac` (rule R47). -/

theorem test_decode_reset :
    decodeTableWord 40 0b1_1_101_00000000000000000000000000000011 = some (.reset true 5 3#32) := by decide
theorem test_decode_idle :
    decodeTableWord 40 0b0_0_110_10000000000000000000000000000000 = some (.idle 6 0x80000000#32) := by decide
theorem test_decode_decode :
    decodeTableWord 40 0b0_1_100_01000000010010010000111111011011 = some (.decode 0x40490FDB#32) := by decide
theorem test_decode_badlen :
    decodeTableWord 40 0b0_1_101_01111111100000000000000000000000 = some (.decodeBadlen 5 0x7F800000#32) := by
  decide
theorem test_decode_zero :
    decodeTableWord 32 0b1_00000000_00000000000000000000000 = some (.zero 1#1) := by decide
theorem test_decode_subnormal :
    decodeTableWord 32 0b1_00000000_10000000000000000000001 = some (.subnormal 1#1 0x400001#23) := by decide
theorem test_decode_normalized_lowest_exponent :
    decodeTableWord 32 0b0_00000001_00000000000000000000000 = some (.normalized 0#1 1#8 0#23) := by decide
theorem test_decode_normalized_highest_exponent :
    decodeTableWord 32 0b1_11111110_11111111111111111111111 = some (.normalized 1#1 254#8 0x7FFFFF#23) := by
  decide
theorem test_decode_pos_inf :
    decodeTableWord 32 0b0_11111111_00000000000000000000000 = some .posInf := by decide
theorem test_decode_neg_inf :
    decodeTableWord 32 0b1_11111111_00000000000000000000000 = some .negInf := by decide
theorem test_decode_nan :
    decodeTableWord 32 0b0_11111111_00000000000000000000001 = some (.nan 0#1 1#23) := by decide
theorem test_decode_refuses_bit_above_bundle : decodeTableWord 40 0x2000000000 = none := by decide
theorem test_encode_bad_length :
    encode Params.default (.decodeBadlen 3 0x3F800000#32) = [0x00#8, 0x00#8, 0x80#8, 0x3F#8, 0x0B#8] := by decide
/-- `LEN_W = 5` (rule R44, general form): a bundle of 39 bits, `in_len = 20`. -/
theorem test_decode_wide_length_port :
    decodeBundle { outReg := true, lenW := 5 } 0b0_1_10100_00000000000000000000000000000001 =
      .decodeBadlen 20 1#32 := by decide

/-! ## One step, from the vectors -/

/-- K8, P2 cycle 4: RESET with a DECODE of +Inf in the same cycle. -/
theorem test_step_reset_dominates :
    (afterSteps 1 { fed [0x1C7F800000] with valid := true, res := posInfResult }).map
      (fun s => (s.valid, s.res)) = some (false, Result.resetValue) := by decide
/-- P3 step 5 with `rst = 1`: nothing is reset with `OUT_REG = 0`. -/
theorem test_step_reset_without_register :
    (afterSteps 1 (fedComb [0x1C00800000])).map (fun s => (s.valid, s.res.cls, s.res.uexp)) =
      some (true, 2#3, 0x182#9) := by decide
/-- K6: IDLE with a length and data that look like a DECODE. -/
theorem test_step_idle_holds :
    (afterSteps 1 { fed [0x043F800000] with valid := true, res := posInfResult }).map
      (fun s => (s.valid, s.res)) = some (false, posInfResult) := by decide
/-- R62's example, observed (R135): `DECODE 00 00 80 3F` then IDLE; `out_raw` still reads `32'h3F800000`. -/
theorem test_observation_shows_held_outputs :
    (observations 2 (fed [0x0C3F800000, 0])).map (fun o => (o.valid, o.res.raw)) =
      [(true, 0x3F800000#32), (false, 0x3F800000#32)] := by decide
/-- P3 step 5: the outputs show the bad-length value. -/
theorem test_step_idle_without_register :
    (afterSteps 1 (fedComb [0x0000000000])).map (fun s => (s.valid, s.res.err, s.res.cls)) =
      some (false, 1#2, 7#3) := by decide
/-- V16. -/
theorem test_step_decode_normalized :
    (afterSteps 1 (fed [0x0C40490FDB])).map (fun s => s.res) =
      some { err := 0#2, cls := 2#3, sign := 0#1, bexp := 128#8, frac := 0x490FDB#23, eexp := 1#9,
             eexpOk := true, sig24 := 0xC90FDB#24, uexp := 1#9, raw := 0x40490FDB#32,
             recon := 0x40490FDB#32 } := by decide
/-- V18: negative exponents. -/
theorem test_step_decode_negative_exponent :
    (afterSteps 1 (fed [0x0C3EAAAAAB])).map (fun s => (s.res.bexp, s.res.eexp, s.res.sig24)) =
      some (125#8, 0x1FE#9, 0xAAAAAB#24) := by decide
/-- K2. -/
theorem test_step_bad_length :
    (afterSteps 1 (fed [0x0B3F800000])).map (fun s => (s.valid, s.res)) =
      some (true, { Result.resetValue with err := 1#2, cls := 7#3 }) := by decide
/-- K4. -/
theorem test_step_bad_length_seven :
    (afterSteps 1 (fed [0x0FFFFFFFFF])).map (fun s => s.res.raw) = some 0#32 := by decide
/-- V8: the table's row, presented, gives -0. -/
theorem test_step_zero :
    (afterSteps 1 (State.reset.withFetchWord 32 0x80000000)).map
      (fun s => (s.res.cls, s.res.sign, s.res.eexp, s.res.uexp, s.res.recon)) =
      some (0#3, 1#1, 0x181#9, 0x182#9, 0x80000000#32) := by decide
/-- V10: no hidden bit. -/
theorem test_step_subnormal :
    (afterSteps 1 (State.reset.withFetchWord 32 0x007FFFFF)).map
      (fun s => (s.res.cls, s.res.sig24, s.res.eexpOk)) = some (1#3, 0x7FFFFF#24, false) := by decide
/-- V12: the same scale as a subnormal. -/
theorem test_step_normalized_smallest :
    (afterSteps 1 (State.reset.withFetchWord 32 0x00800000)).map
      (fun s => (s.res.cls, s.res.sig24, s.res.uexp)) = some (2#3, 0x800000#24, 0x182#9) := by decide
/-- V4. -/
theorem test_step_pos_inf :
    (afterSteps 1 (State.reset.withFetchWord 32 0x7F800000)).map
      (fun s => (s.res.cls, s.res.eexp, s.res.sig24, s.res.uexp)) =
      some (3#3, 0x080#9, 0#24, 0x080#9) := by decide
/-- V11. -/
theorem test_step_neg_inf :
    (afterSteps 1 (State.reset.withFetchWord 32 0xFF800000)).map
      (fun s => (s.res.cls, s.res.sign, s.res.recon)) = some (4#3, 1#1, 0xFF800000#32) := by decide
/-- V23: a negative NaN keeps sign and payload. -/
theorem test_step_nan :
    (afterSteps 1 (State.reset.withFetchWord 32 0xFFC00000)).map
      (fun s => (s.res.cls, s.res.sign, s.res.frac, s.res.recon)) =
      some (5#3, 1#1, 0x400000#23, 0xFFC00000#32) := by decide
/-- V13: the class meanings and `decode_comb` on one word. -/
theorem test_class_result_normalized :
    normalizedResult 0#1 127#8 1#23 = decodeComb 0x3F800001#32 4 := by decide

/-! ## The self-check and the values -/

/-- E1 and E2. -/
theorem test_nans_are_equal :
    nanAwareEq 0x7FC00000#32 0x7F800001#32 = true ∧ nanAwareEq 0xFFFFFFFF#32 0x7FC00000#32 = true := by decide
/-- E3, E5 and E6. -/
theorem test_unequal_pairs :
    nanAwareEq 0x00000000#32 0x80000000#32 = false ∧ nanAwareEq 0x7F800000#32 0xFF800000#32 = false ∧
      nanAwareEq 0x7FC00000#32 0x3F800000#32 = false := by decide
/-- X1, byte by byte. -/
theorem test_bytewise_extraction :
    bytewiseBexp 0xDB#8 0x0F#8 0x49#8 0x40#8 = 128#8 ∧
      bytewiseFrac 0xDB#8 0x0F#8 0x49#8 0x40#8 = 0x490FDB#23 := by decide

/-! ## Text -/

theorem test_read_decode :
    readLine 3 "DECODE 00 00 80 3F ; one".toList = some (.decode 0x00#8 0x00#8 0x80#8 0x3F#8) := by decide
/-- K2's line and its bundle. -/
theorem test_read_bad_length :
    (readLine 3 "DECODE.LEN 3 00 00 80 3F".toList).bind (lineBundle 3) = some 0x0B3F800000 := by decide
theorem test_read_bundle :
    (readLine 3 ".BUNDLE 37'h1C3F800000".toList).bind (lineBundle 3) = some 0x1C3F800000 := by decide
theorem test_read_word :
    (readLine 3 "DECODE.W 32'h3F800000".toList).bind (lineBundle 3) = some 0x0C3F800000 := by decide
theorem test_read_refuses_length_eight :
    (readLine 3 "DECODE.LEN 8".toList).bind (lineBundle 3) = none := by decide
/-- V15's result line. -/
theorem test_show_result :
    showResult (some (decodeComb 0x3F000000#32 4)) =
      "=> err=0 cls=Normalized sign=0 bexp=126 frac=0x000000 eexp=-1 ok=1 sig24=0x800000 uexp=-1 raw=0x3F000000 recon=0x3F000000" := by
  decide

/-! ## Witnesses: a concrete input meets the hypotheses of each statement that has some -/

/-- `ResetCommandClearsRegisters` and the first clause of `IdleDropsValidAndHolds`. -/
theorem witness_register : (fed []).cfg.outReg = true ∧ (fed []).cfg.legal = true := by decide
/-- `ResetTermWithoutRegister`, `RstIgnoredWithoutRegister` and the second clause of
`IdleDropsValidAndHolds`. -/
theorem witness_no_register : (fedComb []).cfg.outReg = false := by decide

theorem witness_ResetDominatesDecode :
    (fed [0x1C3F800000]).cfg.outReg = true ∧ 4 < 2 ^ (fed [0x1C3F800000]).cfg.lenW ∧
      (fed [0x1C3F800000]).inputs =
        bundleOf (fed [0x1C3F800000]).cfg.lenW ⟨true, true, 4, 0x3F800000#32⟩ :: [] := by decide

/-- Two edges without a command: all zeros, and K6's. -/
theorem witness_ResultHeldThroughIdleEdges :
    (fed [0, 0x043F800000]).cfg.outReg = true ∧
      (fed [0, 0x043F800000]).inputs = [0, 0x043F800000] ++ [] ∧
      ∀ c ∈ [0, 0x043F800000], c.testBit (33 + (fed [0, 0x043F800000]).cfg.lenW) = false ∧
        c.testBit (32 + (fed [0, 0x043F800000]).cfg.lenW) = false := by decide

/-- The lengths on either side of 4, and the ends of the port. -/
theorem witness_BadLengthResult : (0 : Nat) ≠ 4 ∧ (3 : Nat) ≠ 4 ∧ (5 : Nat) ≠ 4 ∧ (7 : Nat) ≠ 4 := by decide

/-- `SubnormalClassResult`, `NormalizedClassResult` and `NanClassResult`, the clause on words. -/
theorem witness_classes_at_their_boundaries :
    decodeWord 0x00000001#32 = some (.subnormal 0#1 1#23) ∧
    decodeWord 0x807FFFFF#32 = some (.subnormal 1#1 0x7FFFFF#23) ∧
    decodeWord 0x00800000#32 = some (.normalized 0#1 1#8 0#23) ∧
    decodeWord 0x7F7FFFFF#32 = some (.normalized 0#1 254#8 0x7FFFFF#23) ∧
    decodeWord 0x7F800001#32 = some (.nan 0#1 1#23) ∧
    decodeWord 0xFFFFFFFF#32 = some (.nan 1#1 0x7FFFFF#23) := by decide

/-- The same three, the clause on the instruction, at the ends of its operand's range. -/
theorem witness_class_operands :
    ((1#23 : BitVec 23) ≠ 0#23 ∧ (0x7FFFFF#23 : BitVec 23) ≠ 0#23) ∧
    (1 ≤ (1#8).toNat ∧ (1#8).toNat ≤ 254) ∧ (1 ≤ (254#8).toNat ∧ (254#8).toNat ≤ 254) := by decide

/-- `IllFormedTermsComputeTheSameFormulas`, its second clause: both exponents that are no Normalized one. -/
theorem witness_IllFormedTermsComputeTheSameFormulas :
    (0#8 = 0#8 ∨ 0#8 = 255#8) ∧ ((255#8 : BitVec 8) = 0#8 ∨ (255#8 : BitVec 8) = 255#8) := by decide

/-- One triple for each clause of `ClassIsFunctionOfFields`, the last at both ends. -/
theorem witness_ClassIsFunctionOfFields :
    (decodeComb (1#1 ++ 0#8 ++ 0#23) 4).cls = 0#3 ∧ (decodeComb (0#1 ++ 0#8 ++ 1#23) 4).cls = 1#3 ∧
    (decodeComb (0#1 ++ 255#8 ++ 0#23) 4).cls = 3#3 ∧ (decodeComb (1#1 ++ 255#8 ++ 0#23) 4).cls = 4#3 ∧
    (decodeComb (0#1 ++ 255#8 ++ 1#23) 4).cls = 5#3 ∧ (decodeComb (0#1 ++ 1#8 ++ 0#23) 4).cls = 2#3 ∧
    (decodeComb (0#1 ++ 254#8 ++ 0#23) 4).cls = 2#3 := by decide

/-- A record whose rebuilt word lost the sign of zero (rule R104), and one that agrees. -/
theorem witness_MismatchIsSurfacedAndKeepsFields :
    nanAwareEq ({ zeroResult 1#1 with recon := 0#32 } : Result).recon
      ({ zeroResult 1#1 with recon := 0#32 } : Result).raw = false ∧
    nanAwareEq (zeroResult 1#1).recon (zeroResult 1#1).raw = true := by decide

/-- The unpacked form: -0 and the largest normal. -/
theorem witness_UnpackedFormGivesTheValue :
    (0x80000000#32).extractLsb' 23 8 ≠ 255#8 ∧ (decodeComb 0x80000000#32 4).sig24 = 0#24 ∧
    (0x7F7FFFFF#32).extractLsb' 23 8 ≠ 255#8 ∧ (decodeComb 0x7F7FFFFF#32 4).sig24 ≠ 0#24 := by decide

/-- `UnpackedExponentValue`, a word for each clause: Zero, Subnormal, Normalized, +Inf, -Inf, NaN. -/
theorem witness_UnpackedExponentValue :
    (decodeComb 0x00000000#32 4).cls = 0#3 ∧ (decodeComb 0x007FFFFF#32 4).cls = 1#3 ∧
    (decodeComb 0x00800000#32 4).cls = 2#3 ∧ (decodeComb 0x7F800000#32 4).cls = 3#3 ∧
    (decodeComb 0xFF800000#32 4).cls = 4#3 ∧ (decodeComb 0x7F800001#32 4).cls = 5#3 := by decide

theorem witness_SubnormalScaleIsNotEexp :
    (0x00400000#32).extractLsb' 23 8 = 0#8 ∧ (0x00400000#32).extractLsb' 0 23 ≠ 0#23 := by decide

/-- The ends of the two finite classes are rationals. -/
theorem witness_RangeOfFiniteValues :
    (∃ q, wordValue 0x00000001#32 = .rat q ∧ (0x00000001#32).extractLsb' 23 8 = 0#8) ∧
    (∃ q, wordValue 0x007FFFFF#32 = .rat q ∧ (0x007FFFFF#32).extractLsb' 23 8 = 0#8) ∧
    (∃ q, wordValue 0x00800000#32 = .rat q ∧ (0x00800000#32).extractLsb' 23 8 ≠ 0#8) ∧
    (∃ q, wordValue 0x7F7FFFFF#32 = .rat q ∧ (0x7F7FFFFF#32).extractLsb' 23 8 ≠ 0#8) :=
  ⟨⟨_, rfl, by decide⟩, ⟨_, rfl, by decide⟩, ⟨_, rfl, by decide⟩, ⟨_, rfl, by decide⟩⟩

/-- `StepRunsTheDecodedCommand`, both clauses, and `StepFollowsTheTransitionRule`. -/
theorem witness_presented_and_not : (fed [0x0C3F800000]).inputs = 0x0C3F800000 :: [] ∧ (fed []).inputs = [] := by
  decide

/-- `StepKeepsTheInvariant` and `InvariantRulesOutReservedCodes`: a state that shows a result. -/
theorem witness_invariant :
    State.inv { fed [0x0C3F800000] with valid := true, res := decodeComb 0x7FC00000#32 4 } = true ∧
    (step { fed [0x0C3F800000] with valid := true, res := decodeComb 0x7FC00000#32 4 } =
      .next { fed [] with valid := true, res := decodeComb 0x3F800000#32 4 }) := ⟨by decide, rfl⟩

theorem witness_OneResetEdgeInitialisesAnyState :
    (fed [0x1000000000]).cfg.outReg = true ∧ (fed [0x1000000000]).cfg.legal = true ∧
      (fed [0x1000000000]).inputs = 0x1000000000 :: [] ∧
      (0x1000000000 : Nat).testBit (33 + (fed [0x1000000000]).cfg.lenW) = true := by decide

/-- Each of the three grounds: no register, RESET, DECODE. -/
theorem witness_StepReadsNoRegister :
    (fedComb [0]).cfg.outReg = false ∧
    (0x1000000000 : Nat).testBit (33 + (fed [0x1000000000]).cfg.lenW) = true ∧
    (0x0800000000 : Nat).testBit (32 + (fed [0x0800000000]).cfg.lenW) = true := by decide

theorem witness_ResultsComeInOrderAsIfAlone :
    (fed [0x0C3F800000, 0, 0x0800000000]).inputs = [0x0C3F800000, 0] ++ [0x0800000000] := by decide

/-- A run from reset, split at its first, a middle and its last bundle: DECODE, IDLE, RESET. -/
theorem witness_ObservationOfARunFromReset :
    Params.default.outReg = true ∧
    [0x0C3F800000, 0, 0x1000000000] = [] ++ 0x0C3F800000 :: [0, 0x1000000000] ∧
    [0x0C3F800000, 0, 0x1000000000] = [0x0C3F800000] ++ 0 :: [0x1000000000] ∧
    [0x0C3F800000, 0, 0x1000000000] = [0x0C3F800000, 0] ++ 0x1000000000 :: [] := by decide

theorem witness_ObservationWithoutRegister :
    (fedComb [0x0C3F800000, 0, 0x0800000000]).cfg.outReg = false ∧
    (fedComb [0x0C3F800000, 0, 0x0800000000]).inputs = [0x0C3F800000, 0] ++ [0x0800000000] := by decide

/-- Well-formed at the ends of the operands' ranges. -/
theorem witness_DecodeOfEncodeIsTheInstruction :
    Params.legal Params.default = true ∧ Instr.wf Params.default (.reset true 7 0xFFFFFFFF#32) = true ∧
    Instr.wf Params.default (.decodeBadlen 7 0#32) = true ∧
    Instr.wf Params.default (.subnormal 1#1 1#23) = true ∧
    Instr.wf Params.default (.normalized 1#1 254#8 0#23) = true := by decide

theorem witness_EveryBundleIsOneCommand :
    Params.default.outReg = true ∧ Params.default.legal = true ∧
      0x1FFFFFFFFF < 2 ^ (34 + Params.default.lenW) := by decide

/-- `EveryInstructionCompletesWithItsFrame`, its last clause: an IDLE and a class instruction. -/
theorem witness_EveryInstructionCompletesWithItsFrame :
    (encodePorts (.idle 7 0#32)).rst = false ∧ (encodePorts .posInf).rst = false := by decide

theorem witness_BundleFieldLayout : (⟨true, true, 7, 0xFFFFFFFF#32⟩ : Ports).inLen < 2 ^ 3 := by decide

/-- One bundle for each clause of `CommandSelection`, the lengths next to 4 among them. -/
theorem witness_CommandSelection :
    (0x1FFFFFFFFF : Nat).testBit 36 = true ∧
    ((0x07FFFFFFFF : Nat).testBit 36 = false ∧ (0x07FFFFFFFF : Nat).testBit 35 = false) ∧
    ((0x0CFFFFFFFF : Nat).testBit 36 = false ∧ (0x0CFFFFFFFF : Nat).testBit 35 = true ∧
      0x0CFFFFFFFF / 2 ^ 32 % 2 ^ 3 = 4) ∧
    ((0x0BFFFFFFFF : Nat).testBit 36 = false ∧ (0x0BFFFFFFFF : Nat).testBit 35 = true ∧
      0x0BFFFFFFFF / 2 ^ 32 % 2 ^ 3 ≠ 4) ∧
    ((0x0D00000000 : Nat).testBit 35 = true ∧ 0x0D00000000 / 2 ^ 32 % 2 ^ 3 ≠ 4) := by decide

/-- Three bytes; five bytes of the first number past the bundle; five bytes of the last one in it. -/
theorem witness_OtherByteListsAreRejected :
    ([0#8, 0#8, 0#8] : List Byte).length ≠ bundleBytes 3 ∧
    (([0#8, 0#8, 0#8, 0#8, 0x20#8] : List Byte).length = bundleBytes 3 ∧
      2 ^ (34 + 3) ≤ natOfBytes [0#8, 0#8, 0#8, 0#8, 0x20#8]) ∧
    (([0xFF#8, 0xFF#8, 0xFF#8, 0xFF#8, 0x1F#8] : List Byte).length = bundleBytes 3 ∧
      natOfBytes [0xFF#8, 0xFF#8, 0xFF#8, 0xFF#8, 0x1F#8] < 2 ^ (34 + 3)) := by decide

theorem witness_PresentedTableRowRunsNext :
    (State.reset.cfg.legal = true ∧ 0xFFFFFFFF < 2 ^ 32) ∧
      (State.reset.cfg = Params.default ∧ 0x1FFFFFFFFF < 2 ^ 37) := by decide

/-- The length clauses of `CommandLinesPresentTheirCommands`: 4, 7 and 8, and the last bundle. -/
theorem witness_CommandLinesPresentTheirCommands :
    (4 : Nat) < 2 ^ Params.default.lenW ∧ (7 : Nat) < 2 ^ Params.default.lenW ∧ (7 : Nat) ≠ 4 ∧
      2 ^ Params.default.lenW ≤ 8 ∧ 0x1FFFFFFFFF < 2 ^ (34 + Params.default.lenW) := by decide

end Sys2Proof.Tests
end

/-! PROOFS. The state and its reset (`10_state.md`): the reset record is no decode result, and idle
edges hold the result registers. -/

namespace Sys2Proof.Machine

/-! ## The fields of `decode_comb` -/

/-- The self-check writes the error code and no other field (rule R99). -/
theorem selfCheck_frame (r : Result) : ∃ e, selfCheck r = report e r := by
  unfold selfCheck
  split
  · exact ⟨.none, rfl⟩
  · exact ⟨.reconstructionMismatch, rfl⟩

@[simp] theorem report_bexp (e : ErrorTag) (r : Result) : (report e r).bexp = r.bexp := rfl
@[simp] theorem report_uexp (e : ErrorTag) (r : Result) : (report e r).uexp = r.uexp := rfl

theorem decodeComb_four_bexp (data : Word) : (decodeComb data 4).bexp = bexpOf data := by
  obtain ⟨e, he⟩ := selfCheck_frame (decodeFields data)
  rw [decodeComb_four, he, report_bexp]; rfl

theorem decodeComb_four_uexp (data : Word) :
    (decodeComb data 4).uexp = unpackedExponent (bexpOf data) := by
  obtain ⟨e, he⟩ := selfCheck_frame (decodeFields data)
  rw [decodeComb_four, he, report_uexp]; rfl

theorem decodeComb_badlen_err {len : Nat} (h : len ≠ 4) (data : Word) :
    (decodeComb data len).err = errorCode .invalidInputLength := by
  rw [decodeComb_badlen h, report_err]

/-- The reset record's `bexp = 0` and `uexp = 0` do not go together: with `bexp = 0`,
`uexp` is -126 (rule R87). -/
theorem unpackedExponent_zero_ne : unpackedExponent 0#8 ≠ 0#9 := by decide

/-- No buffer and no length gives the reset record (rule R28): a bad length has an error code, and
an accepted buffer with `bexp = 0` has a nonzero `uexp`. -/
theorem decodeComb_ne_resetValue (data : Word) (len : Nat) :
    decodeComb data len ≠ Result.resetValue := by
  intro h
  by_cases hlen : len = 4
  · subst hlen
    have hbexp : bexpOf data = 0#8 := by rw [← decodeComb_four_bexp, h]; rfl
    have huexp : unpackedExponent (bexpOf data) = 0#9 := by rw [← decodeComb_four_uexp, h]; rfl
    rw [hbexp] at huexp
    exact unpackedExponent_zero_ne huexp
  · have herr : errorCode .invalidInputLength = 0#2 := by
      rw [← decodeComb_badlen_err hlen data, h]; rfl
    exact absurd herr (by decide)

/-- Settles O1: the values are those of `State.reset`, and `decodeComb_ne_resetValue` gives
the remark. -/
theorem resetValuesOfEveryRegister : Obligations.ResetValuesOfEveryRegister :=
  ⟨rfl, rfl, decodeComb_ne_resetValue⟩

/-! ## Edges without a command -/

theorem exec_idle (len : Nat) (data : Word) (s : State) :
    exec (.idle len data) s = .next (showIdle len data s) := rfl

/-- With `OUT_REG = 1`, no command presented drops `valid` and changes nothing else (rule R21). -/
theorem showIdle_of_outReg {s : State} (h : s.cfg.outReg = true) (len : Nat) (data : Word) :
    showIdle len data s = { s with valid := false } := if_pos h

/-- A bundle with `rst = 0` and `in_valid = 0` selects IDLE, in both realisations (rules R45, R46). -/
theorem decodeBundle_eq_idle {cfg : Params} {c : Bundle} (hrst : c.testBit (33 + cfg.lenW) = false)
    (hvalid : c.testBit (32 + cfg.lenW) = false) :
    decodeBundle cfg c = .idle (portsOf cfg.lenW c).inLen (portsOf cfg.lenW c).inData := by
  simp [decodeBundle, selectCommand, portsOf, hrst, hvalid]

/-- One edge without a command, with `OUT_REG = 1` (rule R21). -/
theorem step_idle {s : State} {c : Bundle} {rest : List Bundle} (hreg : s.cfg.outReg = true)
    (hin : s.inputs = c :: rest) (hrst : c.testBit (33 + s.cfg.lenW) = false)
    (hvalid : c.testBit (32 + s.cfg.lenW) = false) :
    step s = .next { s with valid := false, inputs := rest } := by
  rw [step_cons s c rest hin, decodeBundle_eq_idle hrst hvalid, exec_idle, showIdle_of_outReg]
  exact hreg

theorem afterSteps_succ_of_next {s t : State} (h : step s = .next t) (n : Nat) :
    afterSteps (n + 1) s = afterSteps n t := by
  simp only [afterSteps, h]

/-- The state after any number of edges without a command: they are taken, `valid` is 0 after the
first of them, and nothing else changes. -/
theorem afterSteps_idle (cs rest : List Bundle) (s : State) (hreg : s.cfg.outReg = true)
    (hin : s.inputs = cs ++ rest)
    (hidle : ∀ c ∈ cs, c.testBit (33 + s.cfg.lenW) = false ∧ c.testBit (32 + s.cfg.lenW) = false) :
    afterSteps cs.length s = some { s with valid := s.valid && cs.isEmpty, inputs := rest } := by
  induction cs generalizing s with
  | nil => simp [afterSteps, ← show s.inputs = rest from hin]
  | cons c cs ih =>
    obtain ⟨⟨hrst, hvalid⟩, hrest⟩ := List.forall_mem_cons.mp hidle
    have hstep := step_idle (rest := cs ++ rest) hreg hin hrst hvalid
    have hlater := ih { s with valid := false, inputs := cs ++ rest } hreg rfl hrest
    rw [List.length_cons, afterSteps_succ_of_next hstep, hlater]
    simp

/-- Settles O7, by induction on the idle bundles (`afterSteps_idle`). -/
theorem resultHeldThroughIdleEdges : Obligations.ResultHeldThroughIdleEdges := by
  intro cs rest s hreg hin hidle
  have hvalid (hne : cs ≠ []) : (s.valid && cs.isEmpty) = false := by simp [hne]
  exact ⟨_, afterSteps_idle cs rest s hreg hin hidle, rfl, hvalid, rfl, rfl, rfl⟩

end Sys2Proof.Machine

/-! PROOFS. The byte lanes of the input buffer (`20_memory.md`, rules R32 and R33): reading a lane of
an assembled word gives its byte, and assembling a word's lanes gives the word. -/

namespace Sys2Proof

open BitVec (extractLsb'_append_eq_left extractLsb'_append_eq_right extractLsb'_append_eq_of_le)

/-! ## The lanes of an assembled word

Lane k lies above the k low bytes: `extractLsb'_append_eq_of_le` drops them one by one, lowest first. -/

section
variable (b0 b1 b2 b3 : Byte)

@[simp] theorem lane_assemble_zero : lane (assemble b0 b1 b2 b3) 0 = b0 :=
  extractLsb'_append_eq_right

@[simp] theorem lane_assemble_one : lane (assemble b0 b1 b2 b3) 1 = b1 :=
  (extractLsb'_append_eq_of_le (by decide)).trans extractLsb'_append_eq_right

@[simp] theorem lane_assemble_two : lane (assemble b0 b1 b2 b3) 2 = b2 :=
  calc lane (assemble b0 b1 b2 b3) 2
    _ = (b3 ++ b2 ++ b1).extractLsb' 8 8 := extractLsb'_append_eq_of_le (by decide)
    _ = (b3 ++ b2).extractLsb' 0 8 := extractLsb'_append_eq_of_le (by decide)
    _ = b2 := extractLsb'_append_eq_right

@[simp] theorem lane_assemble_three : lane (assemble b0 b1 b2 b3) 3 = b3 :=
  calc lane (assemble b0 b1 b2 b3) 3
    _ = (b3 ++ b2 ++ b1).extractLsb' 16 8 := extractLsb'_append_eq_of_le (by decide)
    _ = (b3 ++ b2).extractLsb' 8 8 := extractLsb'_append_eq_of_le (by decide)
    _ = b3 := extractLsb'_append_eq_left

end

/-- `rawBits_eq` with the lanes written out, for words that are not spelled `rawBits`. -/
@[simp] theorem assemble_lanes (data : Word) :
    assemble (lane data 0) (lane data 1) (lane data 2) (lane data 3) = data :=
  rawBits_eq data

/-- Settles O28: the four lanes of an assembled word, and `assemble_lanes` for the way back. -/
theorem byteLanesAssembleToTheWord : Obligations.ByteLanesAssembleToTheWord :=
  ⟨fun b0 b1 b2 b3 => ⟨lane_assemble_zero b0 b1 b2 b3, lane_assemble_one b0 b1 b2 b3,
    lane_assemble_two b0 b1 b2 b3, lane_assemble_three b0 b1 b2 b3⟩, assemble_lanes⟩

end Sys2Proof

/-! PROOFS. The encodings (`30_encoding.md`): where the ports stand in a bundle, which command a bundle
selects, the byte-wise extraction of the fields, and the pseudo-commands. -/

namespace Sys2Proof

/-! ## The ports in a bundle (rule R44)

A bundle is `in_data` below `2 ^ 32` times the rest, and the rest is `in_len` below `2 ^ LEN_W` times the
two flags: each port is a quotient or a remainder. -/

section
variable (lenW : Nat) (p : Ports)

theorem bundleOf_mod : bundleOf lenW p % 2 ^ 32 = p.inData.toNat := by
  rw [bundleOf, Nat.add_mul_mod_self_left, Nat.mod_eq_of_lt p.inData.isLt]

theorem bundleOf_div :
    bundleOf lenW p / 2 ^ 32 = p.inLen + 2 ^ lenW * (p.inValid.toNat + 2 * p.rst.toNat) := by
  rw [bundleOf, Nat.add_mul_div_left _ _ (by decide), Nat.div_eq_of_lt p.inData.isLt, Nat.zero_add]

variable {lenW p} (hlen : p.inLen < 2 ^ lenW)
include hlen

theorem bundleOf_div_mod : bundleOf lenW p / 2 ^ 32 % 2 ^ lenW = p.inLen := by
  rw [bundleOf_div, Nat.add_mul_mod_self_left, Nat.mod_eq_of_lt hlen]

/-- What stands above `in_data` and `in_len`: the two flags. -/
theorem bundleOf_div_flags :
    bundleOf lenW p / 2 ^ (32 + lenW) = p.inValid.toNat + 2 * p.rst.toNat := by
  rw [Nat.pow_add, ← Nat.div_div_eq_div_mul, bundleOf_div, Nat.add_mul_div_left _ _ (by positivity),
    Nat.div_eq_of_lt hlen, Nat.zero_add]

theorem bundleOf_testBit_valid : (bundleOf lenW p).testBit (32 + lenW) = p.inValid := by
  rw [Nat.testBit_eq_decide_div_mod_eq, bundleOf_div_flags hlen]
  cases p.inValid <;> simp

theorem bundleOf_testBit_rst : (bundleOf lenW p).testBit (33 + lenW) = p.rst := by
  rw [show 33 + lenW = 1 + (32 + lenW) by omega, Nat.testBit_add, bundleOf_div_flags hlen]
  cases p.inValid <;> cases p.rst <;> rfl

theorem bundleOf_lt : bundleOf lenW p < 2 ^ (34 + lenW) := by
  have hflags : p.inValid.toNat + 2 * p.rst.toNat < 4 := by
    have := p.inValid.toNat_lt
    have := p.rst.toNat_lt
    omega
  rw [← bundleOf_div_flags hlen, Nat.div_lt_iff_lt_mul (by positivity)] at hflags
  calc bundleOf lenW p
    _ < 2 ^ 2 * 2 ^ (32 + lenW) := hflags
    _ = 2 ^ (34 + lenW) := by rw [← Nat.pow_add]; congr 1; omega

/-- Reading a bundle gives the ports that it was made of. -/
theorem portsOf_bundleOf : portsOf lenW (bundleOf lenW p) = p := by
  have hdata : BitVec.ofNat 32 (bundleOf lenW p) = p.inData :=
    BitVec.eq_of_toNat_eq (by rw [BitVec.toNat_ofNat, bundleOf_mod])
  rw [portsOf, bundleOf_testBit_rst hlen, bundleOf_testBit_valid hlen, Nat.shiftRight_eq_div_pow,
    bundleOf_div_mod hlen, hdata]

end

/-- Settles O48: each port by its lemma on `bundleOf`. -/
theorem bundleFieldLayout : Obligations.BundleFieldLayout := fun lenW p hlen =>
  ⟨bundleOf_testBit_rst hlen, bundleOf_testBit_valid hlen, bundleOf_div_mod hlen, bundleOf_mod lenW p,
    bundleOf_lt hlen, portsOf_bundleOf hlen⟩

/-! ## The command of a bundle (rule R45)

IDLE is `Machine.decodeBundle_eq_idle`. -/

/-- `in_len` as a quotient and a remainder of the bundle. -/
theorem portsOf_inLen (lenW : Nat) (c : Bundle) :
    (portsOf lenW c).inLen = c / 2 ^ 32 % 2 ^ lenW := by
  rw [portsOf, Nat.shiftRight_eq_div_pow]

section
variable {cfg : Params} {c : Bundle}

theorem decodeBundle_eq_reset (hreg : cfg.outReg = true) (hrst : c.testBit (33 + cfg.lenW) = true) :
    decodeBundle cfg c = .reset (portsOf cfg.lenW c).inValid (portsOf cfg.lenW c).inLen
      (portsOf cfg.lenW c).inData := by
  have hports : (portsOf cfg.lenW c).rst = true := hrst
  simp [decodeBundle, selectCommand, hreg, hports]

variable (hrst : c.testBit (33 + cfg.lenW) = false) (hvalid : c.testBit (32 + cfg.lenW) = true)
include hrst hvalid

/-- With `rst = 0` and `in_valid = 1` the length alone decides. -/
theorem decodeBundle_of_valid :
    decodeBundle cfg c =
      if (portsOf cfg.lenW c).inLen = 4 then .decode (portsOf cfg.lenW c).inData
      else .decodeBadlen (portsOf cfg.lenW c).inLen (portsOf cfg.lenW c).inData := by
  have hports : (portsOf cfg.lenW c).rst = false ∧ (portsOf cfg.lenW c).inValid = true :=
    ⟨hrst, hvalid⟩
  simp [decodeBundle, selectCommand, hports]

theorem decodeBundle_eq_decode (hlen : (portsOf cfg.lenW c).inLen = 4) :
    decodeBundle cfg c = .decode (portsOf cfg.lenW c).inData := by
  rw [decodeBundle_of_valid hrst hvalid, if_pos hlen]

theorem decodeBundle_eq_decodeBadlen (hlen : (portsOf cfg.lenW c).inLen ≠ 4) :
    decodeBundle cfg c = .decodeBadlen (portsOf cfg.lenW c).inLen (portsOf cfg.lenW c).inData := by
  rw [decodeBundle_of_valid hrst hvalid, if_neg hlen]

end

/-- Settles O49: one lemma per row of rule R45. -/
theorem commandSelection : Obligations.CommandSelection := by
  intro cfg c hreg rst valid len data
  rw [show len = (portsOf cfg.lenW c).inLen from (portsOf_inLen cfg.lenW c).symm]
  exact ⟨decodeBundle_eq_reset hreg, Machine.decodeBundle_eq_idle, decodeBundle_eq_decode,
    decodeBundle_eq_decodeBadlen⟩

/-! ## No register: `rst` is no part of the command (rule R46) -/

/-- RESET is selected with `OUT_REG = 1` only. -/
theorem outReg_of_decodeBundle_eq_reset {cfg : Params} {c : Bundle} {valid : Bool} {len : Nat}
    {data : Word} (h : decodeBundle cfg c = .reset valid len data) : cfg.outReg = true := by
  obtain ⟨-, hreg, -⟩ | ⟨hc, -⟩ | ⟨hc, -⟩ | ⟨hc, -⟩ := Machine.decodeBundle_cases cfg c
  · exact hreg
  all_goals cases hc.symm.trans h

/-- With `OUT_REG = 0` the selection does not read `rst`. -/
theorem selectCommand_false_rst (p : Ports) (rst : Bool) :
    selectCommand false { p with rst := rst } = selectCommand false p := rfl

/-- Flipping bit `33 + LEN_W` changes `rst` and no other port (rule R44). -/
theorem portsOf_flip_rst (lenW : Nat) (c : Bundle) :
    portsOf lenW (c ^^^ 2 ^ (33 + lenW)) = { portsOf lenW c with rst := !(portsOf lenW c).rst } := by
  have hpow : 2 ^ (33 + lenW) = 2 ^ 32 * (2 ^ lenW * 2) := by ring
  have hlen : 2 ^ (33 + lenW) >>> 32 % 2 ^ lenW = 0 := by
    rw [hpow, Nat.shiftRight_eq_div_pow, Nat.mul_div_cancel_left _ (by decide), Nat.mul_mod_right]
  have hdata : BitVec.ofNat 32 (2 ^ (33 + lenW)) = 0#32 :=
    BitVec.eq_of_toNat_eq (by rw [BitVec.toNat_ofNat, hpow, Nat.mul_mod_right]; rfl)
  have hvalid : (2 ^ (33 + lenW)).testBit (32 + lenW) = false := Nat.testBit_two_pow_of_ne (by omega)
  simp [portsOf, Nat.shiftRight_xor_distrib, Nat.xor_mod_two_pow, BitVec.ofNat_xor, hlen, hdata, hvalid]

/-- Settles O5: `outReg_of_decodeBundle_eq_reset`, and a flipped bit that only `rst` shows. -/
theorem rstIgnoredWithoutRegister : Obligations.RstIgnoredWithoutRegister := by
  intro cfg c hreg
  constructor
  · intro valid len data h
    exact absurd (outReg_of_decodeBundle_eq_reset h) (by simp [hreg])
  · rw [decodeBundle, decodeBundle, portsOf_flip_rst, hreg, selectCommand_false_rst]

/-! ## The byte-wise extraction (rule R49)

Said of the lanes of a word first: slices that meet are one slice of the word, which is the field. -/

/-- A slice of a byte lane is a slice of the word. -/
theorem lane_extractLsb' (w : Word) (k : Nat) {start len : Nat} (h : start + len ≤ 8) :
    (lane w k).extractLsb' start len = w.extractLsb' (8 * k + start) len := by
  apply BitVec.eq_of_getLsbD_eq
  intro i hi
  have : start + i < 8 := by omega
  simp [lane, hi, this, Nat.add_assoc]

section
variable (w : Word)

theorem lanes_sign : (lane w 3).extractLsb' 7 1 = signOf w := by
  rw [lane_extractLsb' w 3 (by decide), signOf_eq_slice]

theorem lanes_bexp : (lane w 3).extractLsb' 0 7 ++ (lane w 2).extractLsb' 7 1 = bexpOf w := by
  rw [lane_extractLsb' w 3 (by decide), lane_extractLsb' w 2 (by decide), bexpOf_eq_slice]
  exact BitVec.extractLsb'_append_extractLsb'_eq_extractLsb' rfl

theorem lanes_frac : (lane w 2).extractLsb' 0 7 ++ lane w 1 ++ lane w 0 = fracOf w := by
  have hhigh : w.extractLsb' 16 7 ++ w.extractLsb' 8 8 = w.extractLsb' 8 15 :=
    BitVec.extractLsb'_append_extractLsb'_eq_extractLsb' rfl
  have hall : w.extractLsb' 8 15 ++ w.extractLsb' 0 8 = w.extractLsb' 0 23 :=
    BitVec.extractLsb'_append_extractLsb'_eq_extractLsb' rfl
  calc (lane w 2).extractLsb' 0 7 ++ lane w 1 ++ lane w 0
    _ = w.extractLsb' 16 7 ++ w.extractLsb' 8 8 ++ w.extractLsb' 0 8 := by
      rw [lane_extractLsb' w 2 (by decide)]; rfl
    _ = w.extractLsb' 0 23 := by rw [hhigh, hall]
    _ = fracOf w := (fracOf_eq_slice w).symm

end

section
variable (b0 b1 b2 b3 : Byte)

theorem bytewiseSign_eq : Machine.bytewiseSign b0 b1 b2 b3 = signOf (assemble b0 b1 b2 b3) := by
  simpa [Machine.bytewiseSign] using lanes_sign (assemble b0 b1 b2 b3)

theorem bytewiseBexp_eq : Machine.bytewiseBexp b0 b1 b2 b3 = bexpOf (assemble b0 b1 b2 b3) := by
  simpa [Machine.bytewiseBexp] using lanes_bexp (assemble b0 b1 b2 b3)

theorem bytewiseFrac_eq : Machine.bytewiseFrac b0 b1 b2 b3 = fracOf (assemble b0 b1 b2 b3) := by
  simpa [Machine.bytewiseFrac] using lanes_frac (assemble b0 b1 b2 b3)

end

namespace Machine

@[simp] theorem report_sign (e : ErrorTag) (r : Result) : (report e r).sign = r.sign := rfl
@[simp] theorem report_frac (e : ErrorTag) (r : Result) : (report e r).frac = r.frac := rfl

theorem decodeComb_four_sign (data : Word) : (decodeComb data 4).sign = signOf data := by
  obtain ⟨e, he⟩ := selfCheck_frame (decodeFields data)
  rw [decodeComb_four, he, report_sign]; rfl

theorem decodeComb_four_frac (data : Word) : (decodeComb data 4).frac = fracOf data := by
  obtain ⟨e, he⟩ := selfCheck_frame (decodeFields data)
  rw [decodeComb_four, he, report_frac]; rfl

end Machine

/-- Settles O27: a field of DECODE is the field of its word, and the byte-wise one is that too. -/
theorem bytewiseExtractionAgrees : Obligations.BytewiseExtractionAgrees := by
  intro b0 b1 b2 b3 r
  have hsign : Machine.bytewiseSign b0 b1 b2 b3 = r.sign :=
    (bytewiseSign_eq b0 b1 b2 b3).trans (Machine.decodeComb_four_sign _).symm
  have hbexp : Machine.bytewiseBexp b0 b1 b2 b3 = r.bexp :=
    (bytewiseBexp_eq b0 b1 b2 b3).trans (Machine.decodeComb_four_bexp _).symm
  have hfrac : Machine.bytewiseFrac b0 b1 b2 b3 = r.frac :=
    (bytewiseFrac_eq b0 b1 b2 b3).trans (Machine.decodeComb_four_frac _).symm
  exact ⟨hsign.symm, hbexp.symm, hfrac.symm, hsign, hbexp, hfrac⟩

/-! ## Pseudo-commands (rule R58) -/

/-- A line presents what its expansion presents: an expansion is no pseudo-command. -/
theorem lineBundle_expandLine (lenW : Nat) (l : Machine.CommandLine) :
    Machine.lineBundle lenW (Machine.expandLine l) = Machine.lineBundle lenW l := by
  cases l <;> rfl

/-- Settles O54: `lineBundle_expandLine` for each of the three pseudo-commands. -/
theorem pseudoCommandsExpand : Obligations.PseudoCommandsExpand := fun lenW n w =>
  ⟨(lineBundle_expandLine lenW (.decodeW w)).symm, (lineBundle_expandLine lenW (.decodeLenOnly n)).symm,
    (lineBundle_expandLine lenW .nop).symm⟩

end Sys2Proof

/-! PROOFS. The decode (`40_decode.md`): what IDLE, DECODE and DECODE_BADLEN show, the effective exponent,
and the exact value of the fraction. -/

namespace Sys2Proof.Machine

/-! ## The commands without a decode (rules R62 and R73) -/

/-- With `OUT_REG = 0`, no command presented drops `valid`, and the results follow the ports
(rules R18, R62). -/
theorem showIdle_of_not_outReg {s : State} (h : s.cfg.outReg = false) (len : Nat) (data : Word) :
    showIdle len data s = { s with valid := false, res := decodeComb data len } :=
  if_neg (by simp [h])

/-- Settles O6: `showIdle` in each of the two realisations. -/
theorem idleDropsValidAndHolds : Obligations.IdleDropsValidAndHolds := by
  intro len data s
  rw [exec_idle]
  exact ⟨fun hreg => congrArg _ (showIdle_of_outReg hreg len data),
    fun hreg => congrArg _ (showIdle_of_not_outReg hreg len data)⟩

theorem exec_decodeBadlen (len : Nat) (data : Word) (s : State) :
    exec (.decodeBadlen len data) s = .next (loadResult (decodeComb data len) s) := rfl

/-- Settles O9: by `decodeComb_badlen` the record is one constant, whatever the buffer. -/
theorem badLengthResult : Obligations.BadLengthResult := by
  intro len data s hlen
  rw [exec_decodeBadlen, decodeComb_badlen hlen]
  rfl

/-! ## An accepted buffer

The self-check of a DECODE never finds a mismatch, since every class rebuilds the word of its fields; so
`decode_comb` is `decodeFields` alone. -/

/-- Each class keeps in `recon` what its word's fields leave free, and fixes the rest as the class does
(rule R88). -/
theorem reconstruct_classify (sign : BitVec 1) (bexp : BitVec 8) (frac : BitVec 23) :
    reconstruct (classify sign bexp frac) sign bexp frac = packWord sign bexp frac := by
  obtain ⟨hcls, rfl, rfl⟩ | ⟨hcls, rfl, -⟩ | ⟨hcls, rfl, rfl, rfl⟩ | ⟨hcls, rfl, rfl, rfl⟩ |
    ⟨hcls, rfl, -⟩ | ⟨hcls, -⟩ := classify_cases sign bexp frac
  all_goals rw [hcls]; rfl

/-- The rebuilt word is the buffer's word bit for bit (rule R100). -/
theorem decodeFields_recon (raw : Word) : (decodeFields raw).recon = raw :=
  (reconstruct_classify (signOf raw) (bexpOf raw) (fracOf raw)).trans (packWord_fields raw)

theorem decodeComb_four_eq_decodeFields (data : Word) : decodeComb data 4 = decodeFields data := by
  rw [decodeComb_four, selfCheck_of_eq (decodeFields_recon data)]
  rfl

/-! ## The class of three fields, read off its outputs -/

section
variable (sign : BitVec 1) (bexp : BitVec 8) (frac : BitVec 23)

theorem classify_eq_normalized_iff :
    classify sign bexp frac = .normalized ↔ bexp ≠ 0#8 ∧ bexp ≠ 255#8 := by
  obtain ⟨hcls, rfl, -⟩ | ⟨hcls, rfl, -⟩ | ⟨hcls, rfl, -⟩ | ⟨hcls, rfl, -⟩ | ⟨hcls, rfl, -⟩ |
    ⟨hcls, h0, h255⟩ := classify_cases sign bexp frac
  case inr.inr.inr.inr.inr => exact iff_of_true hcls ⟨h0, h255⟩
  all_goals simp [hcls]

/-- The hidden bit is 1 between the two reserved exponents only (rules R79, R85). -/
theorem hiddenBit_classify :
    hiddenBit (classify sign bexp frac) = if bexp = 0#8 ∨ bexp = 255#8 then 0#1 else 1#1 := by
  simp only [hiddenBit, classify_eq_normalized_iff, ← not_or, ite_not]

/-- The code on `cls`, decided by the exponent first, then by the fraction and the sign (rules R52, R76). -/
theorem classCode_classify :
    classCode (classify sign bexp frac) =
      if bexp = 0#8 then (if frac = 0#23 then 0#3 else 1#3)
      else if bexp = 255#8 then
        (if frac = 0#23 then (if sign = 0#1 then 3#3 else 4#3) else 5#3)
      else 2#3 := by
  obtain ⟨hcls, rfl, rfl⟩ | ⟨hcls, rfl, hfrac⟩ | ⟨hcls, rfl, rfl, rfl⟩ | ⟨hcls, rfl, rfl, rfl⟩ |
    ⟨hcls, rfl, hfrac⟩ | ⟨hcls, h0, h255⟩ := classify_cases sign bexp frac
  case inr.inl | inr.inr.inr.inr.inl => simp [hcls, hfrac, classCode]
  case inr.inr.inr.inr.inr => simp [hcls, h0, h255, classCode]
  all_goals rw [hcls]; rfl

end

theorem classCode_eq_two_iff (cls : Class) : classCode cls = 2#3 ↔ cls = .normalized := by
  cases cls <;> decide

/-! ## DECODE (rule R63) -/

theorem exec_decode (data : Word) (s : State) :
    exec (.decode data) s = .next (loadResult (decodeFields data) s) := by
  rw [← decodeComb_four_eq_decodeFields]
  rfl

/-- Settles O8: `decodeFields`, each derived field by its own lemma and the three fields of the word as
slices. -/
theorem decodeResultOfEveryBuffer : Obligations.DecodeResultOfEveryBuffer := by
  intro data s
  rw [exec_decode, decodeFields]
  simp only [reconstruct_classify, packWord_fields, classCode_classify, unpackedSignificand,
    hiddenBit_classify]
  simp only [signOf_eq_slice, bexpOf_eq_slice, fracOf_eq_slice]
  rfl

/-! ## The effective exponent (rules R69 and R70) -/

/-- Settles O23: nine bits hold the difference (`effectiveExponent_toInt`). -/
theorem effectiveExponentIsExact : Obligations.EffectiveExponentIsExact := by
  intro data
  rw [decodeComb_four_eq_decodeFields, ← bexpOf_eq_slice]
  exact effectiveExponent_toInt (bexpOf data)

theorem effectiveExponentOk_iff (bexp : BitVec 8) :
    effectiveExponentOk bexp = true ↔ bexp ≠ 0#8 ∧ bexp ≠ 255#8 := by
  simp [effectiveExponentOk]

/-- Settles O24: `eexp_ok`, the range 1..254 and the class Normalized each say that the exponent is neither
all zeros nor all ones. -/
theorem eexpOkExactlyForNormalized : Obligations.EexpOkExactlyForNormalized := by
  intro data
  rw [decodeComb_four_eq_decodeFields, ← bexpOf_eq_slice]
  have hok := effectiveExponentOk_iff (bexpOf data)
  have hcls := (classCode_eq_two_iff _).trans
    (classify_eq_normalized_iff (signOf data) (bexpOf data) (fracOf data))
  exact ⟨hok.trans (bexp_normal_iff _), hok.trans hcls.symm⟩

/-! ## The value of the fraction (rules R71 and R72) -/

/-- The sum of step 5 over the first `n` fraction bits. -/
def fracPrefix (frac : BitVec 23) (n : Nat) : ℚ :=
  ((List.range n).map fun i => if fracBit frac (i + 1) then (1 / 2 : ℚ) ^ (i + 1) else 0).sum

theorem fracPrefix_all (frac : BitVec 23) : fracPrefix frac 23 = fracValue frac := rfl

theorem fracPrefix_succ (frac : BitVec 23) (n : Nat) :
    fracPrefix frac (n + 1) =
      fracPrefix frac n + ((fracBit frac (n + 1)).toNat : ℚ) / 2 ^ (n + 1) := by
  have hterm (b : Bool) : (if b then (1 / 2 : ℚ) ^ (n + 1) else 0) = (b.toNat : ℚ) / 2 ^ (n + 1) := by
    cases b <;> simp
  rw [← hterm]
  simp [fracPrefix, List.range_succ]

/-- One more bit of a number cut off at bit `k`. -/
theorem div_two_pow_eq_add_testBit (m k : Nat) :
    m / 2 ^ k = 2 * (m / 2 ^ (k + 1)) + (m.testBit k).toNat := by
  rw [Nat.toNat_testBit, Nat.pow_succ, ← Nat.div_div_eq_div_mul, Nat.div_add_mod]

/-- The first `n` bits are the fraction with its low `k = 23 - n` bits cut off, over `2 ^ n`. -/
theorem fracPrefix_eq (frac : BitVec 23) (n k : Nat) (h : n + k = 23) :
    fracPrefix frac n = ((frac.toNat / 2 ^ k : Nat) : ℚ) / 2 ^ n := by
  induction n generalizing k with
  | zero =>
    have hk : k = 23 := by omega
    rw [hk, Nat.div_eq_of_lt frac.isLt]
    simp [fracPrefix]
  | succ n ih =>
    have hbit : fracBit frac (n + 1) = frac.toNat.testBit k := by
      rw [fracBit, show 23 - (n + 1) = k by omega, BitVec.getLsbD]
    rw [fracPrefix_succ, ih (k + 1) (by omega), hbit, div_two_pow_eq_add_testBit frac.toNat k]
    push_cast
    rw [pow_succ' (2 : ℚ) n, add_div, mul_div_mul_left _ _ two_ne_zero]

theorem fracValue_eq (frac : BitVec 23) : fracValue frac = (frac.toNat : ℚ) / 2 ^ 23 := by
  rw [← fracPrefix_all, fracPrefix_eq frac 23 0 rfl, Nat.pow_zero, Nat.div_one]

/-- The greatest fraction is `2^23 - 1`. -/
theorem fracValue_le (frac : BitVec 23) : fracValue frac ≤ 1 - (2 : ℚ) ^ (-23 : ℤ) := by
  have hmax : (frac.toNat : ℚ) ≤ 2 ^ 23 - 1 := by
    have hsucc : (frac.toNat : ℚ) + 1 ≤ 2 ^ 23 := by exact_mod_cast frac.isLt
    linarith
  calc fracValue frac
    _ = (frac.toNat : ℚ) / 2 ^ 23 := fracValue_eq frac
    _ ≤ (2 ^ 23 - 1) / 2 ^ 23 := by gcongr
    _ = 1 - (2 : ℚ) ^ (-23 : ℤ) := by norm_num

/-- Settles O29: `fracValue_eq`, by induction on the number of bits summed (`fracPrefix_eq`). -/
theorem fracValueIsFracOverTwoPow23 : Obligations.FracValueIsFracOverTwoPow23 := by
  intro frac
  have hnonneg : 0 ≤ fracValue frac := by rw [fracValue_eq]; positivity
  exact ⟨fracValue_eq frac, hnonneg, fracValue_le frac⟩

/-- Settles O30: by `fracValue_eq` the sum is 0 exactly when the numerator is. -/
theorem fracValueZeroIffFracZero : Obligations.FracValueZeroIffFracZero := by
  intro frac
  rw [fracValue_eq, div_eq_zero_iff, or_iff_left (by norm_num), Nat.cast_eq_zero, BitVec.toNat_eq]
  rfl

end Sys2Proof.Machine

/-! PROOFS. The class map (`30_encoding.md` rule R54, `41_classify.md` rules R76 to R83): the row that
selects a word is the row of its class, and each class's result. -/

namespace Sys2Proof

/-- The selecting condition of each class, on the three fields (rules R77 to R82). -/
def Class.accepts (sign : BitVec 1) (bexp : BitVec 8) (frac : BitVec 23) : Class → Prop
  | .zero             => bexp = 0#8 ∧ frac = 0#23
  | .subnormal        => bexp = 0#8 ∧ frac ≠ 0#23
  | .normalized       => bexp ≠ 0#8 ∧ bexp ≠ 255#8
  | .positiveInfinity => sign = 0#1 ∧ bexp = 255#8 ∧ frac = 0#23
  | .negativeInfinity => sign = 1#1 ∧ bexp = 255#8 ∧ frac = 0#23
  | .nan              => bexp = 255#8 ∧ frac ≠ 0#23

/-! ## Masked words as fields -/

theorem eq_packWord_iff (w : Word) (sign : BitVec 1) (bexp : BitVec 8) (frac : BitVec 23) :
    w = packWord sign bexp frac ↔ signOf w = sign ∧ bexpOf w = bexp ∧ fracOf w = frac := by
  rw [← packWord_inj, packWord_fields]

theorem and_magnitudeMask_eq_iff (w : Word) (bexp : BitVec 8) (frac : BitVec 23) :
    w &&& 0x7FFFFFFF#32 = packWord 0#1 bexp frac ↔ bexpOf w = bexp ∧ fracOf w = frac := by
  rw [and_magnitudeMask, packWord_inj, and_iff_right rfl]

theorem and_expMask_eq_iff (w : Word) (bexp : BitVec 8) :
    w &&& 0x7F800000#32 = packWord 0#1 bexp 0#23 ↔ bexpOf w = bexp := by
  rw [and_expMask, packWord_inj, and_iff_right rfl, and_iff_left rfl]

theorem and_wordMask_eq_iff (w : Word) (sign : BitVec 1) (bexp : BitVec 8) (frac : BitVec 23) :
    w &&& 0xFFFFFFFF#32 = packWord sign bexp frac ↔
      signOf w = sign ∧ bexpOf w = bexp ∧ fracOf w = frac := by
  rw [show 0xFFFFFFFF#32 = BitVec.allOnes 32 from rfl, BitVec.and_allOnes, eq_packWord_iff]

namespace Machine

/-! ## The class of three fields is the one that accepts them (rules R76 and R83) -/

section
variable {sign : BitVec 1} {bexp : BitVec 8} {frac : BitVec 23}

theorem classify_accepts : (classify sign bexp frac).accepts sign bexp frac := by
  obtain ⟨hcls, h⟩ | ⟨hcls, h⟩ | ⟨hcls, hbexp, hfrac, hsign⟩ | ⟨hcls, hbexp, hfrac, hsign⟩ | ⟨hcls, h⟩ |
    ⟨hcls, h⟩ := classify_cases sign bexp frac
  case inr.inr.inl | inr.inr.inr.inl => rw [hcls]; exact ⟨hsign, hbexp, hfrac⟩
  all_goals rw [hcls]; exact h

theorem classify_eq_iff_accepts (cls : Class) :
    classify sign bexp frac = cls ↔ cls.accepts sign bexp frac := by
  refine ⟨fun h => h ▸ classify_accepts, fun h => ?_⟩
  cases cls with
  | zero => exact if_pos h
  | subnormal => obtain ⟨rfl, hfrac⟩ := h; simp [classify, hfrac]
  | normalized => exact (classify_eq_normalized_iff sign bexp frac).mpr h
  | positiveInfinity => obtain ⟨rfl, rfl, rfl⟩ := h; rfl
  | negativeInfinity => obtain ⟨rfl, rfl, rfl⟩ := h; rfl
  | nan => obtain ⟨rfl, hfrac⟩ := h; simp [classify, hfrac]

end

/-- The class of a word (rule R76). -/
def wordClass (w : Word) : Class := classify (signOf w) (bexpOf w) (fracOf w)

theorem wordClass_eq_iff (w : Word) (cls : Class) :
    wordClass w = cls ↔ cls.accepts (signOf w) (bexpOf w) (fracOf w) := classify_eq_iff_accepts cls

theorem wordClass_accepts (w : Word) : (wordClass w).accepts (signOf w) (bexpOf w) (fracOf w) :=
  classify_accepts

theorem wordClass_packWord (sign : BitVec 1) (bexp : BitVec 8) (frac : BitVec 23) :
    wordClass (packWord sign bexp frac) = classify sign bexp frac := by
  simp only [wordClass, signOf_packWord, bexpOf_packWord, fracOf_packWord]

/-! ## The row of a word (rule R54) -/

/-- Mask, match and constraint of each row say what its class asks of the fields. -/
theorem classRow_selects_iff_accepts {r : ClassRow} (hr : r ∈ classRows) (w : Word) :
    r.selects w = true ↔ r.cls.accepts (signOf w) (bexpOf w) (fracOf w) := by
  have hselects : r.selects w = true ↔ w &&& r.mask = r.pattern ∧ r.constraint.holds w = true := by
    simp [ClassRow.selects]
  rw [hselects]
  simp only [classRows, List.mem_cons, List.not_mem_nil, or_false] at hr
  obtain rfl | rfl | rfl | rfl | rfl | rfl := hr
  case inl => exact (and_iff_left rfl).trans (and_magnitudeMask_eq_iff w 0#8 0#23)
  case inr.inl => exact and_congr (and_expMask_eq_iff w 0#8) bne_iff_ne
  case inr.inr.inl =>
    simp [ClassConstraint.holds, Class.accepts, bexp_normal_iff]
  case inr.inr.inr.inl => exact (and_iff_left rfl).trans (and_wordMask_eq_iff w 0#1 255#8 0#23)
  case inr.inr.inr.inr.inl => exact (and_iff_left rfl).trans (and_wordMask_eq_iff w 1#1 255#8 0#23)
  case inr.inr.inr.inr.inr => exact and_congr (and_expMask_eq_iff w 255#8) bne_iff_ne

/-- The class map has one row for each class. -/
theorem classRows_filter_cls (cls : Class) :
    ∃ r, classRows.filter (fun r => r.cls = cls) = [r] ∧ r.cls = cls := by
  cases cls <;> exact ⟨_, rfl, rfl⟩

/-- Exactly one row selects a word, the row of its class (rule R83). -/
theorem classRows_filter_selects (w : Word) :
    ∃ r, classRows.filter (fun r => r.selects w) = [r] ∧ r.cls = wordClass w := by
  have hrows : ∀ r ∈ classRows, r.selects w = decide (r.cls = wordClass w) := by
    intro r hr
    rw [Bool.eq_iff_iff, decide_eq_true_iff, eq_comm (a := r.cls), wordClass_eq_iff]
    exact classRow_selects_iff_accepts hr w
  rw [List.filter_congr hrows]
  exact classRows_filter_cls (wordClass w)

theorem decodeWord_eq (w : Word) : decodeWord w = some (classInstr (wordClass w) w) := by
  obtain ⟨r, hrow, hcls⟩ := classRows_filter_selects w
  have hfind : classRows.find? (fun r => r.selects w) = some r := by
    rw [← List.head?_filter, hrow]; rfl
  simp only [decodeWord, hfind, hcls]

/-! ## The class that a DECODE shows -/

theorem decodeComb_four_cls (data : Word) : (decodeComb data 4).cls = classCode (wordClass data) := by
  rw [decodeComb_four_eq_decodeFields]; rfl

theorem classCode_injective : Function.Injective classCode := by
  intro a b
  cases a <;> cases b <;> decide

theorem decodeComb_four_cls_eq_iff (data : Word) (cls : Class) :
    (decodeComb data 4).cls = classCode cls ↔ cls.accepts (signOf data) (bexpOf data) (fracOf data) := by
  rw [decodeComb_four_cls, classCode_injective.eq_iff, wordClass_eq_iff]

/-- No class has the reserved code or the code NONE (rule R55). -/
theorem classCode_ne (cls : Class) : classCode cls ≠ 6#3 ∧ classCode cls ≠ 7#3 := by
  cases cls <;> decide

/-- Settles O17: the selecting row is the row of the word's class (`classRows_filter_selects`). -/
theorem exactlyOneClassSelectsEveryWord : Obligations.ExactlyOneClassSelectsEveryWord := by
  intro w
  obtain ⟨r, hrow, hcls⟩ := classRows_filter_selects w
  rw [decodeComb_four_cls]
  exact ⟨⟨r, hrow, by rw [hcls]⟩, classCode_ne (wordClass w)⟩

theorem decodeComb_packWord_cls {sign : BitVec 1} {bexp : BitVec 8} {frac : BitVec 23} (cls : Class)
    (h : cls.accepts sign bexp frac) : (decodeComb (sign ++ bexp ++ frac) 4).cls = classCode cls := by
  rw [decodeComb_four_cls]
  exact congrArg classCode ((wordClass_packWord sign bexp frac).trans ((classify_eq_iff_accepts cls).mpr h))

/-- Settles O18: each clause is the selecting condition of one class. -/
theorem classIsFunctionOfFields : Obligations.ClassIsFunctionOfFields := fun _ bexp _ =>
  ⟨fun hbexp hfrac => decodeComb_packWord_cls .zero ⟨hbexp, hfrac⟩,
    fun hbexp hfrac => decodeComb_packWord_cls .subnormal ⟨hbexp, hfrac⟩,
    fun hbexp hfrac hsign => decodeComb_packWord_cls .positiveInfinity ⟨hsign, hbexp, hfrac⟩,
    fun hbexp hfrac hsign => decodeComb_packWord_cls .negativeInfinity ⟨hsign, hbexp, hfrac⟩,
    fun hbexp hfrac => decodeComb_packWord_cls .nan ⟨hbexp, hfrac⟩,
    fun hlow hhigh => decodeComb_packWord_cls .normalized ((bexp_normal_iff bexp).mpr ⟨hlow, hhigh⟩)⟩

/-! ## The words of a class instruction -/

/-- The class that a class instruction stands for (log 6); a command stands for none. -/
def classOf : Instr → Option Class
  | .reset _ _ _      => none
  | .idle _ _         => none
  | .decode _         => none
  | .decodeBadlen _ _ => none
  | .zero _           => some .zero
  | .subnormal _ _    => some .subnormal
  | .normalized _ _ _ => some .normalized
  | .posInf           => some .positiveInfinity
  | .negInf           => some .negativeInfinity
  | .nan _ _          => some .nan

theorem classOf_classInstr (cls : Class) (w : Word) : classOf (classInstr cls w) = some cls := by
  cases cls <;> rfl

/-- A word decodes to a class instruction iff its fields are of the class, and are the operands. -/
theorem decodeWord_eq_some_iff {i : Instr} {cls : Class} (hi : classOf i = some cls) (w : Word) :
    decodeWord w = some i ↔
      cls.accepts (signOf w) (bexpOf w) (fracOf w) ∧ classInstr cls w = i := by
  rw [decodeWord_eq, Option.some_inj, ← wordClass_eq_iff]
  constructor
  · rintro rfl
    have hcls : wordClass w = cls := Option.some.inj ((classOf_classInstr _ w).symm.trans hi)
    exact ⟨hcls, by rw [hcls]⟩
  · rintro ⟨rfl, hinstr⟩
    exact hinstr

section
variable (w : Word) (sign : BitVec 1) (bexp : BitVec 8) (frac : BitVec 23)

theorem decodeWord_eq_zero_iff :
    decodeWord w = some (.zero sign) ↔ bexpOf w = 0#8 ∧ fracOf w = 0#23 ∧ signOf w = sign := by
  rw [decodeWord_eq_some_iff rfl, classInstr, Instr.zero.injEq, ← and_assoc]
  rfl

/-- Selection and operands of the two classes with a nonzero fraction, at their exponent. -/
theorem fracNonzero_operands_iff :
    (bexpOf w = bexp ∧ fracOf w ≠ 0#23) ∧ signOf w = sign ∧ fracOf w = frac ↔
      bexpOf w = bexp ∧ frac ≠ 0#23 ∧ fracOf w = frac ∧ signOf w = sign := by
  constructor
  · rintro ⟨⟨hbexp, hfrac⟩, rfl, rfl⟩
    exact ⟨hbexp, hfrac, rfl, rfl⟩
  · rintro ⟨hbexp, hfrac, rfl, rfl⟩
    exact ⟨⟨hbexp, hfrac⟩, rfl, rfl⟩

theorem decodeWord_eq_subnormal_iff :
    decodeWord w = some (.subnormal sign frac) ↔
      bexpOf w = 0#8 ∧ frac ≠ 0#23 ∧ fracOf w = frac ∧ signOf w = sign := by
  rw [decodeWord_eq_some_iff rfl, classInstr, Instr.subnormal.injEq]
  exact fracNonzero_operands_iff w sign 0#8 frac

theorem decodeWord_eq_normalized_iff :
    decodeWord w = some (.normalized sign bexp frac) ↔
      1 ≤ bexp.toNat ∧ bexp.toNat ≤ 254 ∧ bexpOf w = bexp ∧ fracOf w = frac ∧ signOf w = sign := by
  rw [decodeWord_eq_some_iff rfl]
  constructor
  · rintro ⟨hbexp, hinstr⟩
    cases hinstr
    obtain ⟨hlow, hhigh⟩ := (bexp_normal_iff _).mp hbexp
    exact ⟨hlow, hhigh, rfl, rfl, rfl⟩
  · rintro ⟨hlow, hhigh, rfl, rfl, rfl⟩
    exact ⟨(bexp_normal_iff _).mpr ⟨hlow, hhigh⟩, rfl⟩

theorem decodeWord_eq_nan_iff :
    decodeWord w = some (.nan sign frac) ↔
      bexpOf w = 255#8 ∧ frac ≠ 0#23 ∧ fracOf w = frac ∧ signOf w = sign := by
  rw [decodeWord_eq_some_iff rfl, classInstr, Instr.nan.injEq]
  exact fracNonzero_operands_iff w sign 255#8 frac

theorem decodeWord_eq_posInf_iff : decodeWord w = some .posInf ↔ w = 0x7F800000#32 := by
  rw [decodeWord_eq_some_iff rfl]
  exact (and_iff_left rfl).trans (eq_packWord_iff w 0#1 255#8 0#23).symm

theorem decodeWord_eq_negInf_iff : decodeWord w = some .negInf ↔ w = 0xFF800000#32 := by
  rw [decodeWord_eq_some_iff rfl]
  exact (and_iff_left rfl).trans (eq_packWord_iff w 1#1 255#8 0#23).symm

end

/-! ## The values of a class (rule R84) -/

theorem wordValue_eq (w : Word) :
    wordValue w = valueOf (wordClass w) (signOf w) (bexpOf w) (fracOf w) := rfl

/-- A word's value is the one that its class gives, the class told from the fields. -/
theorem wordValue_of_accepts {w : Word} {cls : Class}
    (h : cls.accepts (signOf w) (bexpOf w) (fracOf w)) :
    wordValue w = valueOf cls (signOf w) (bexpOf w) (fracOf w) := by
  rw [wordValue_eq, (wordClass_eq_iff w cls).mpr h]

theorem wordValue_packWord {sign : BitVec 1} {bexp : BitVec 8} {frac : BitVec 23} (cls : Class)
    (h : cls.accepts sign bexp frac) :
    wordValue (packWord sign bexp frac) = valueOf cls sign bexp frac := by
  have hfields := wordValue_of_accepts (w := packWord sign bexp frac) (cls := cls)
  simp only [signOf_packWord, bexpOf_packWord, fracOf_packWord] at hfields
  exact hfields h

/-- The two forms of rule R78. -/
theorem valueOf_subnormal (sign : BitVec 1) (bexp : BitVec 8) (frac : BitVec 23) :
    valueOf .subnormal sign bexp frac =
      .rat (signFactor sign * (2 : ℚ) ^ (-126 : ℤ) * fracValue frac) := by
  have hscale : (2 : ℚ) ^ (-149 : ℤ) = 2 ^ (-126 : ℤ) / 2 ^ 23 := by norm_num
  rw [valueOf, fracValue_eq, hscale]
  congr 1
  ring

/-- The two forms of rule R79. -/
theorem valueOf_normalized (sign : BitVec 1) (bexp : BitVec 8) (frac : BitVec 23) :
    valueOf .normalized sign bexp frac =
      .rat (signFactor sign * (2 : ℚ) ^ ((bexp.toNat : ℤ) - 127) * (1 + fracValue frac)) := by
  have hscale : (2 : ℚ) ^ ((bexp.toNat : ℤ) - 150) = 2 ^ ((bexp.toNat : ℤ) - 127) / 2 ^ 23 := by
    rw [← zpow_natCast, ← zpow_sub₀ two_ne_zero, sub_sub]
    rfl
  rw [valueOf, fracValue_eq, hscale]
  congr 1
  field_simp

/-! ## The six class results (rules R77 to R82)

What the instruction shows is its own formula, written out; the rest is the two sections above. -/

theorem packWord_zero (sign : BitVec 1) : packWord sign 0#8 0#23 = sign ++ 0#31 := by
  obtain rfl | rfl := bit_eq_zero_or_one sign <;> rfl

/-- Settles O10: the two zeros of `decodeWord_eq_zero_iff`. -/
theorem zeroClassResult : Obligations.ZeroClassResult := by
  refine ⟨fun sign s => ?_, fun data sign => ?_, rfl, rfl⟩
  · rw [← packWord_zero]; rfl
  · rw [← bexpOf_eq_slice, ← fracOf_eq_slice, ← signOf_eq_slice]
    exact decodeWord_eq_zero_iff data sign

/-- Settles O11: `decodeWord_eq_subnormal_iff`, and the value in its two forms. -/
theorem subnormalClassResult : Obligations.SubnormalClassResult := by
  refine ⟨fun _ _ _ _ => rfl, fun data sign frac => ?_, fun data sign frac h => ?_⟩
  · rw [← bexpOf_eq_slice, ← fracOf_eq_slice, ← signOf_eq_slice]
    exact decodeWord_eq_subnormal_iff data sign frac
  · obtain ⟨hbexp, hfrac, rfl, rfl⟩ := (decodeWord_eq_subnormal_iff data sign frac).mp h
    have hvalue := wordValue_of_accepts (cls := .subnormal) ⟨hbexp, hfrac⟩
    exact ⟨hvalue.trans (valueOf_subnormal _ _ _), hvalue⟩

/-- Settles O12: `decodeWord_eq_normalized_iff`, and the value in its two forms. -/
theorem normalizedClassResult : Obligations.NormalizedClassResult := by
  refine ⟨fun _ _ _ _ _ _ => rfl, fun data sign bexp frac => ?_,
    fun data sign bexp frac h => ?_⟩
  · rw [← bexpOf_eq_slice, ← fracOf_eq_slice, ← signOf_eq_slice]
    exact decodeWord_eq_normalized_iff data sign bexp frac
  · obtain ⟨hlow, hhigh, rfl, rfl, rfl⟩ := (decodeWord_eq_normalized_iff data sign bexp frac).mp h
    have hvalue := wordValue_of_accepts (cls := .normalized) ((bexp_normal_iff _).mpr ⟨hlow, hhigh⟩)
    exact ⟨hvalue.trans (valueOf_normalized _ _ _), hvalue⟩

/-- Settles O13: `decodeWord_eq_posInf_iff`. -/
theorem posInfClassResult : Obligations.PosInfClassResult :=
  ⟨fun _ => rfl, decodeWord_eq_posInf_iff, rfl⟩

/-- Settles O14: `decodeWord_eq_negInf_iff`. -/
theorem negInfClassResult : Obligations.NegInfClassResult :=
  ⟨fun _ => rfl, decodeWord_eq_negInf_iff, rfl⟩

/-- Settles O15: `decodeWord_eq_nan_iff`; the value keeps sign and payload. -/
theorem nanClassResult : Obligations.NanClassResult := by
  refine ⟨fun _ _ _ _ => rfl, fun data sign frac => ?_, fun data sign frac h => ?_⟩
  · rw [← bexpOf_eq_slice, ← fracOf_eq_slice, ← signOf_eq_slice]
    exact decodeWord_eq_nan_iff data sign frac
  · obtain ⟨hbexp, hfrac, rfl, rfl⟩ := (decodeWord_eq_nan_iff data sign frac).mp h
    exact wordValue_of_accepts (cls := .nan) ⟨hbexp, hfrac⟩

end Machine
end Sys2Proof

/-! PROOFS. The unpacked form (`41_classify.md` rules R85 to R87), and the exact values that it and the
words stand for (rules R84, R88, R89, R94, R95). -/

namespace Sys2Proof.Machine

/-! ## The unpacked significand and exponent (rules R85 to R87) -/

theorem unpackedSignificand_toNat (cls : Class) (frac : BitVec 23) :
    (unpackedSignificand cls frac).toNat =
      (if cls = .normalized then 2 ^ 23 else 0) + frac.toNat := by
  rw [unpackedSignificand, hidden_append_toNat, hiddenBit]
  split <;> rfl

/-- The top bit of `sig24` is the hidden bit. -/
theorem unpackedSignificand_getLsbD (cls : Class) (frac : BitVec 23) :
    (unpackedSignificand cls frac).getLsbD 23 = true ↔ cls = .normalized := by
  have hbit : (unpackedSignificand cls frac).getLsbD 23 = (hiddenBit cls).getLsbD 0 :=
    BitVec.getLsbD_append
  rw [hbit, hiddenBit]
  split <;> simp [*]

theorem decodeComb_four_sig24 (data : Word) :
    (decodeComb data 4).sig24 = unpackedSignificand (wordClass data) (fracOf data) := by
  rw [decodeComb_four_eq_decodeFields]; rfl

theorem decodeComb_four_eexp (data : Word) :
    (decodeComb data 4).eexp = effectiveExponent (bexpOf data) := by
  rw [decodeComb_four_eq_decodeFields]; rfl

theorem decodeComb_four_eexpOk (data : Word) :
    (decodeComb data 4).eexpOk = effectiveExponentOk (bexpOf data) := by
  rw [decodeComb_four_eq_decodeFields]; rfl

/-- Settles O25: `sig24` as a number, divided by `2^23` for its 1.23 reading. -/
theorem unpackedSignificandValue : Obligations.UnpackedSignificandValue := by
  intro data r
  have hcls : r.cls = 2#3 ↔ wordClass data = .normalized := by
    rw [decodeComb_four_cls, classCode_eq_two_iff]
  have hsig : r.sig24 = unpackedSignificand (wordClass data) (fracOf data) := decodeComb_four_sig24 data
  simp only [hcls, hsig, ← fracOf_eq_slice, fracValue_eq, unpackedSignificand_toNat]
  refine ⟨unpackedSignificand_getLsbD _ _, trivial, ?_⟩
  split
  · norm_num [add_div]
  · simp

theorem unpackedExponent_of_ne {bexp : BitVec 8} (h : bexp ≠ 0#8) :
    unpackedExponent bexp = effectiveExponent bexp := if_neg h

theorem unpackedExponent_toInt (bexp : BitVec 8) :
    (unpackedExponent bexp).toInt = if bexp = 0#8 then -126 else (bexp.toNat : ℤ) - 127 := by
  split
  case isTrue h => rw [h]; rfl
  case isFalse h => rw [unpackedExponent_of_ne h, effectiveExponent_toInt]

/-- Settles O26: the exponent that each class has decides the arm of `unpackedExponent_toInt`. -/
theorem unpackedExponentValue : Obligations.UnpackedExponentValue := by
  intro data r
  have huexp : r.uexp = unpackedExponent (bexpOf data) := decodeComb_four_uexp data
  have hclass (cls : Class) : r.cls = classCode cls →
      cls.accepts (signOf data) (bexpOf data) (fracOf data) :=
    (decodeComb_four_cls_eq_iff data cls).mp
  have hzero (h : bexpOf data = 0#8) : r.uexp.toInt = -126 := by rw [huexp, h]; rfl
  have hfull (h : bexpOf data = 255#8) : r.uexp.toInt = 128 := by rw [huexp, h]; rfl
  refine ⟨?_, ?_, fun h => ?_, ?_⟩
  · rw [huexp, ← bexpOf_eq_slice]
    exact unpackedExponent_toInt (bexpOf data)
  · rintro (h | h)
    · exact hzero (hclass .zero h).1
    · exact hzero (hclass .subnormal h).1
  · rw [huexp, unpackedExponent_of_ne (hclass .normalized h).1]
    exact (decodeComb_four_eexp data).symm
  · rintro (h | h | h)
    · exact hfull (hclass .positiveInfinity h).2.1
    · exact hfull (hclass .negativeInfinity h).2.1
    · exact hfull (hclass .nan h).1

/-! ## The unpacked form gives the value (rules R89 and R94) -/

theorem unpackedValue_decodeComb (data : Word) :
    unpackedValue (decodeComb data 4) =
      signFactor (signOf data) * (unpackedSignificand (wordClass data) (fracOf data)).toNat *
        (2 : ℚ) ^ ((unpackedExponent (bexpOf data)).toInt - 23) := by
  rw [unpackedValue, decodeComb_four_sign, decodeComb_four_sig24, decodeComb_four_uexp]

/-- A finite word is a zero, with `sig24 = 0`, or the nonzero rational of its unpacked form. -/
theorem wordValue_of_finite {w : Word} (h : bexpOf w ≠ 255#8) :
    ((decodeComb w 4).sig24 = 0#24 ∧
      wordValue w = if signOf w = 0#1 then .posZero else .negZero) ∨
    ((decodeComb w 4).sig24 ≠ 0#24 ∧ wordValue w = .rat (unpackedValue (decodeComb w 4))) := by
  have hsig (cls : Class) (hacc : cls.accepts (signOf w) (bexpOf w) (fracOf w)) :
      (unpackedSignificand (wordClass w) (fracOf w)).toNat =
        (if cls = .normalized then 2 ^ 23 else 0) + (fracOf w).toNat := by
    rw [unpackedSignificand_toNat, (wordClass_eq_iff w cls).mpr hacc]
  rw [decodeComb_four_sig24, ne_eq, BitVec.toNat_eq, unpackedValue_decodeComb, unpackedExponent_toInt]
  by_cases h0 : bexpOf w = 0#8
  · by_cases hf : fracOf w = 0#23
    · rw [hsig .zero ⟨h0, hf⟩, wordValue_of_accepts (cls := .zero) ⟨h0, hf⟩, hf]
      exact .inl ⟨rfl, rfl⟩
    · rw [hsig .subnormal ⟨h0, hf⟩, wordValue_of_accepts (cls := .subnormal) ⟨h0, hf⟩, if_pos h0]
      exact .inr ⟨by simpa using BitVec.toNat_ne_iff_ne.mpr hf, by simp [valueOf]⟩
  · rw [hsig .normalized ⟨h0, h⟩, wordValue_of_accepts (cls := .normalized) ⟨h0, h⟩, if_neg h0]
    exact .inr ⟨by simp, by norm_num [valueOf, sub_sub]⟩

/-- Settles O32: `wordValue_of_finite`; `sig24 = 0` tells which of its two cases holds. -/
theorem unpackedFormGivesTheValue : Obligations.UnpackedFormGivesTheValue := by
  intro data hbexp r q
  rw [← bexpOf_eq_slice] at hbexp
  have hsign : r.sign = signOf data := decodeComb_four_sign data
  obtain ⟨hsig, hvalue⟩ | ⟨hsig, hvalue⟩ := wordValue_of_finite hbexp
  · refine ⟨rfl, fun _ => ?_, fun h => absurd hsig h⟩
    rw [hvalue, hsign]
    obtain h | h := bit_eq_zero_or_one (signOf data) <;> rw [h] <;> rfl
  · exact ⟨rfl, fun h => absurd h hsig, fun _ => hvalue⟩

theorem signFactor_ne_zero (sign : BitVec 1) : signFactor sign ≠ 0 :=
  pow_ne_zero _ (by norm_num)

/-- Settles O33: the two scales give two values, since sign factor and fraction are not 0. -/
theorem subnormalScaleIsNotEexp : Obligations.SubnormalScaleIsNotEexp := by
  intro data hbexp hfrac r
  rw [← bexpOf_eq_slice] at hbexp
  rw [← fracOf_eq_slice] at hfrac
  have heexpOk : r.eexpOk = false := by rw [decodeComb_four_eexpOk, hbexp]; rfl
  have heexp : r.eexp.toInt = -127 := by rw [decodeComb_four_eexp, hbexp]; rfl
  have huexp : r.uexp.toInt = -126 := by rw [decodeComb_four_uexp, hbexp]; rfl
  have hvalue : wordValue data =
      .rat (signFactor r.sign * (2 : ℚ) ^ (-126 : ℤ) * fracValue r.frac) := by
    rw [wordValue_of_accepts (cls := .subnormal) ⟨hbexp, hfrac⟩, valueOf_subnormal,
      decodeComb_four_sign, decodeComb_four_frac]
  have hfracValue : fracValue r.frac ≠ 0 := by
    rw [decodeComb_four_frac]
    exact (fracValueZeroIffFracZero _).not.mpr hfrac
  refine ⟨heexpOk, heexp, huexp, by rw [huexp]; exact hvalue, ?_⟩
  rw [heexp, hvalue]
  intro h
  have hscales : (2 : ℚ) ^ (-126 : ℤ) = 2 ^ (-127 : ℤ) :=
    mul_left_cancel₀ (signFactor_ne_zero r.sign) (mul_right_cancel₀ hfracValue (Value.rat.inj h))
  norm_num at hscales

/-! ## Magnitudes

The magnitude of finite fields is theirs as a number. The formula of the normalized ones, used for the
exponent 255 too, continues the order of the words past the largest finite one, so that the magnitude
determines exponent and fraction for every word. -/

/-- The magnitude that exponent and fraction stand for (rule R84), continued to the exponent 255. -/
def magnitude (bexp : BitVec 8) (frac : BitVec 23) : ℚ :=
  if bexp = 0#8 then frac.toNat * (2 : ℚ) ^ (-149 : ℤ)
  else (2 ^ 23 + frac.toNat) * (2 : ℚ) ^ ((bexp.toNat : ℤ) - 150)

theorem magnitude_zero (frac : BitVec 23) :
    magnitude 0#8 frac = frac.toNat * (2 : ℚ) ^ (-149 : ℤ) := if_pos rfl

theorem magnitude_of_ne {bexp : BitVec 8} (h : bexp ≠ 0#8) (frac : BitVec 23) :
    magnitude bexp frac = (2 ^ 23 + frac.toNat) * (2 : ℚ) ^ ((bexp.toNat : ℤ) - 150) := if_neg h

theorem two_pow_mul_zpow (n : ℕ) (k : ℤ) : (2 : ℚ) ^ n * 2 ^ k = 2 ^ ((n : ℤ) + k) := by
  rw [← zpow_natCast, zpow_add₀ two_ne_zero]

theorem frac_cast_lt (frac : BitVec 23) : (frac.toNat : ℚ) < 2 ^ 23 := by exact_mod_cast frac.isLt

theorem magnitude_lt (bexp : BitVec 8) (frac : BitVec 23) :
    magnitude bexp frac < (2 : ℚ) ^ ((bexp.toNat : ℤ) - 126) := by
  have hfrac := frac_cast_lt frac
  by_cases h : bexp = 0#8
  · calc magnitude bexp frac
      _ = frac.toNat * (2 : ℚ) ^ (-149 : ℤ) := by rw [h, magnitude_zero]
      _ < 2 ^ 23 * (2 : ℚ) ^ (-149 : ℤ) := by gcongr
      _ = (2 : ℚ) ^ ((bexp.toNat : ℤ) - 126) := by rw [two_pow_mul_zpow, h]; rfl
  · calc magnitude bexp frac
      _ = (2 ^ 23 + frac.toNat) * (2 : ℚ) ^ ((bexp.toNat : ℤ) - 150) := magnitude_of_ne h frac
      _ < 2 ^ 24 * (2 : ℚ) ^ ((bexp.toNat : ℤ) - 150) := by gcongr; linarith
      _ = (2 : ℚ) ^ ((bexp.toNat : ℤ) - 126) := by rw [two_pow_mul_zpow]; congr 1; omega

theorem le_magnitude {bexp : BitVec 8} (h : bexp ≠ 0#8) (frac : BitVec 23) :
    (2 : ℚ) ^ ((bexp.toNat : ℤ) - 127) ≤ magnitude bexp frac :=
  calc (2 : ℚ) ^ ((bexp.toNat : ℤ) - 127)
    _ = 2 ^ 23 * (2 : ℚ) ^ ((bexp.toNat : ℤ) - 150) := by rw [two_pow_mul_zpow]; congr 1; omega
    _ ≤ (2 ^ 23 + frac.toNat) * (2 : ℚ) ^ ((bexp.toNat : ℤ) - 150) := by gcongr; simp
    _ = magnitude bexp frac := (magnitude_of_ne h frac).symm

/-- The exponent decides first. -/
theorem magnitude_lt_of_bexp_lt {bexp bexp' : BitVec 8} (h : bexp.toNat < bexp'.toNat)
    (frac frac' : BitVec 23) : magnitude bexp frac < magnitude bexp' frac' := by
  have hne : bexp' ≠ 0#8 := by
    rintro rfl
    exact Nat.not_lt_zero _ h
  calc magnitude bexp frac
    _ < (2 : ℚ) ^ ((bexp.toNat : ℤ) - 126) := magnitude_lt bexp frac
    _ ≤ (2 : ℚ) ^ ((bexp'.toNat : ℤ) - 127) := zpow_le_zpow_right₀ one_le_two (by omega)
    _ ≤ magnitude bexp' frac' := le_magnitude hne frac'

theorem magnitude_inj_frac {bexp : BitVec 8} {frac frac' : BitVec 23}
    (h : magnitude bexp frac = magnitude bexp frac') : frac = frac' := by
  have hpow (k : ℤ) : (2 : ℚ) ^ k ≠ 0 := zpow_ne_zero k two_ne_zero
  have hnum : (frac.toNat : ℚ) = frac'.toNat := by
    by_cases h0 : bexp = 0#8
    · rw [h0, magnitude_zero, magnitude_zero] at h
      exact mul_right_cancel₀ (hpow _) h
    · rw [magnitude_of_ne h0, magnitude_of_ne h0] at h
      exact add_left_cancel (mul_right_cancel₀ (hpow _) h)
  exact BitVec.eq_of_toNat_eq (by exact_mod_cast hnum)

/-- Exponent and fraction are determined by the magnitude. -/
theorem magnitude_inj {bexp bexp' : BitVec 8} {frac frac' : BitVec 23}
    (h : magnitude bexp frac = magnitude bexp' frac') : bexp = bexp' ∧ frac = frac' := by
  obtain hlt | heq | hgt := lt_trichotomy bexp.toNat bexp'.toNat
  · exact absurd h (magnitude_lt_of_bexp_lt hlt frac frac').ne
  · obtain rfl := BitVec.eq_of_toNat_eq heq
    exact ⟨rfl, magnitude_inj_frac h⟩
  · exact absurd h (magnitude_lt_of_bexp_lt hgt frac' frac).ne'

/-! ## A value determines its word (rule R88)

The sign and the magnitude are read off the value. -/

/-- The sign of the word that has a value. -/
def Value.sign : Value → BitVec 1
  | .posZero    => 0#1
  | .negZero    => 1#1
  | .posInf     => 0#1
  | .negInf     => 1#1
  | .nan sign _ => sign
  | .rat q      => if q < 0 then 1#1 else 0#1

/-- The magnitude of the word that has a value. -/
def Value.magnitude : Value → ℚ
  | .posZero       => 0
  | .negZero       => 0
  | .posInf        => Machine.magnitude 255#8 0#23
  | .negInf        => Machine.magnitude 255#8 0#23
  | .nan _ payload => Machine.magnitude 255#8 payload
  | .rat q         => |q|

/-- A finite nonzero value is sign times magnitude. -/
theorem wordValue_eq_rat_magnitude {w : Word}
    (h : (bexpOf w = 0#8 ∧ fracOf w ≠ 0#23) ∨ (bexpOf w ≠ 0#8 ∧ bexpOf w ≠ 255#8)) :
    0 < magnitude (bexpOf w) (fracOf w) ∧
      wordValue w = .rat (signFactor (signOf w) * magnitude (bexpOf w) (fracOf w)) := by
  obtain ⟨hbexp, hfrac⟩ | ⟨h0, h255⟩ := h
  · have hpos : 0 < (fracOf w).toNat := Nat.pos_of_ne_zero (BitVec.toNat_ne_iff_ne.mpr hfrac)
    rw [wordValue_of_accepts (cls := .subnormal) ⟨hbexp, hfrac⟩, hbexp, magnitude_zero, valueOf, mul_assoc]
    exact ⟨by positivity, rfl⟩
  · rw [wordValue_of_accepts (cls := .normalized) ⟨h0, h255⟩, magnitude_of_ne h0, valueOf, mul_assoc]
    exact ⟨by positivity, rfl⟩

theorem rat_sign (sign : BitVec 1) {m : ℚ} (hm : 0 < m) :
    (Value.rat (signFactor sign * m)).sign = sign := by
  obtain rfl | rfl := bit_eq_zero_or_one sign
  · simp [Value.sign, signFactor, hm.le]
  · simp [Value.sign, signFactor, hm]

theorem rat_magnitude (sign : BitVec 1) {m : ℚ} (hm : 0 < m) :
    (Value.rat (signFactor sign * m)).magnitude = m := by
  rw [Value.magnitude, abs_mul, signFactor, abs_pow, abs_neg, abs_one, one_pow, one_mul, abs_of_pos hm]

/-- Sign and magnitude of a word's value are those of the word. -/
theorem wordValue_sign_magnitude (w : Word) :
    (wordValue w).sign = signOf w ∧ (wordValue w).magnitude = magnitude (bexpOf w) (fracOf w) := by
  have haccepts := wordClass_accepts w
  have hvalue := wordValue_eq w
  cases hcls : wordClass w with rw [hcls] at haccepts hvalue
  | zero =>
    obtain ⟨hbexp, hfrac⟩ := haccepts
    rw [hvalue, hbexp, hfrac, magnitude_zero]
    obtain h | h := bit_eq_zero_or_one (signOf w) <;> rw [h] <;> simp [valueOf, Value.sign, Value.magnitude]
  | subnormal =>
    obtain ⟨hpos, hrat⟩ := wordValue_eq_rat_magnitude (.inl haccepts)
    rw [hrat]
    exact ⟨rat_sign _ hpos, rat_magnitude _ hpos⟩
  | normalized =>
    obtain ⟨hpos, hrat⟩ := wordValue_eq_rat_magnitude (.inr haccepts)
    rw [hrat]
    exact ⟨rat_sign _ hpos, rat_magnitude _ hpos⟩
  | positiveInfinity =>
    obtain ⟨hsign, hbexp, hfrac⟩ := haccepts
    rw [hvalue, hsign, hbexp, hfrac]
    exact ⟨rfl, rfl⟩
  | negativeInfinity =>
    obtain ⟨hsign, hbexp, hfrac⟩ := haccepts
    rw [hvalue, hsign, hbexp, hfrac]
    exact ⟨rfl, rfl⟩
  | nan =>
    obtain ⟨hbexp, -⟩ := haccepts
    rw [hvalue, hbexp]
    exact ⟨rfl, rfl⟩

/-- No two words have the same value. -/
theorem wordValue_injective : Function.Injective wordValue := by
  intro w w' h
  obtain ⟨hsign, hmag⟩ := wordValue_sign_magnitude w
  obtain ⟨hsign', hmag'⟩ := wordValue_sign_magnitude w'
  rw [h] at hsign hmag
  obtain ⟨hbexp, hfrac⟩ := magnitude_inj (hmag.symm.trans hmag')
  rw [← packWord_fields w, ← packWord_fields w', ← hsign, hsign', hbexp, hfrac]

/-- Settles O35: `recon` is the word decoded, and `wordValue_injective`. -/
theorem reconIsTheOnlyWordOfItsValue : Obligations.ReconIsTheOnlyWordOfItsValue := by
  intro data w
  rw [decodeComb_four_eq_decodeFields, decodeFields_recon]
  exact wordValue_injective.eq_iff

/-! ## The range of the finite values (rule R95) -/

/-- Only a subnormal or a normalized word has a rational value, and that value's magnitude is the word's. -/
theorem of_wordValue_eq_rat {w : Word} {q : ℚ} (h : wordValue w = .rat q) :
    ((bexpOf w = 0#8 ∧ fracOf w ≠ 0#23) ∨ (bexpOf w ≠ 0#8 ∧ bexpOf w ≠ 255#8)) ∧
      |q| = magnitude (bexpOf w) (fracOf w) := by
  have hmag : |q| = magnitude (bexpOf w) (fracOf w) := by
    rw [← (wordValue_sign_magnitude w).2, h, Value.magnitude]
  have haccepts := wordClass_accepts w
  rw [wordValue_eq] at h
  cases hcls : wordClass w with rw [hcls] at haccepts h
  | zero => rw [valueOf] at h; split at h <;> cases h
  | subnormal => exact ⟨.inl haccepts, hmag⟩
  | normalized => exact ⟨.inr haccepts, hmag⟩
  | positiveInfinity => cases h
  | negativeInfinity => cases h
  | nan => cases h

theorem frac_cast_le (frac : BitVec 23) : (frac.toNat : ℚ) ≤ 2 ^ 23 - 1 := by
  rw [le_sub_iff_add_le]
  exact_mod_cast frac.isLt

theorem magnitude_subnormal_bounds {frac : BitVec 23} (h : frac ≠ 0#23) :
    (2 : ℚ) ^ (-149 : ℤ) ≤ magnitude 0#8 frac ∧
      magnitude 0#8 frac ≤ (2 ^ 23 - 1) * (2 : ℚ) ^ (-149 : ℤ) := by
  have hlow : (1 : ℚ) ≤ frac.toNat := by
    exact_mod_cast Nat.pos_of_ne_zero (BitVec.toNat_ne_iff_ne.mpr h)
  have hhigh := frac_cast_le frac
  rw [magnitude_zero]
  exact ⟨le_mul_of_one_le_left (by positivity) hlow, by gcongr⟩

theorem magnitude_normalized_bounds {bexp : BitVec 8} (h : bexp ≠ 0#8 ∧ bexp ≠ 255#8)
    (frac : BitVec 23) :
    (2 : ℚ) ^ (-126 : ℤ) ≤ magnitude bexp frac ∧
      magnitude bexp frac ≤ (2 ^ 24 - 1) * (2 : ℚ) ^ (104 : ℤ) := by
  obtain ⟨hlow, hhigh⟩ := (bexp_normal_iff bexp).mp h
  obtain ⟨h0, -⟩ := h
  constructor
  · calc (2 : ℚ) ^ (-126 : ℤ)
      _ ≤ (2 : ℚ) ^ ((bexp.toNat : ℤ) - 127) := zpow_le_zpow_right₀ one_le_two (by omega)
      _ ≤ magnitude bexp frac := le_magnitude h0 frac
  · have hfrac : (2 : ℚ) ^ 23 + frac.toNat ≤ 2 ^ 24 - 1 := by linarith [frac_cast_le frac]
    calc magnitude bexp frac
      _ = (2 ^ 23 + frac.toNat) * (2 : ℚ) ^ ((bexp.toNat : ℤ) - 150) := magnitude_of_ne h0 frac
      _ ≤ (2 ^ 24 - 1) * (2 : ℚ) ^ (104 : ℤ) := by
        gcongr
        · exact one_le_two
        · omega

/-- For evaluating a word's value: its fields, and the number their formula comes to. -/
theorem wordValue_packWord_subnormal {sign : BitVec 1} {frac : BitVec 23} {q : ℚ} (hfrac : frac ≠ 0#23)
    (hq : signFactor sign * frac.toNat * (2 : ℚ) ^ (-149 : ℤ) = q) :
    wordValue (packWord sign 0#8 frac) = .rat q :=
  hq ▸ wordValue_packWord .subnormal ⟨rfl, hfrac⟩

theorem wordValue_packWord_normalized {sign : BitVec 1} {bexp : BitVec 8} {frac : BitVec 23} {q : ℚ}
    (hbexp : bexp ≠ 0#8 ∧ bexp ≠ 255#8)
    (hq : signFactor sign * (2 ^ 23 + frac.toNat) * (2 : ℚ) ^ ((bexp.toNat : ℤ) - 150) = q) :
    wordValue (packWord sign bexp frac) = .rat q :=
  hq ▸ wordValue_packWord .normalized hbexp

/-- Settles O34: the bounds on the magnitude of each class, and the five words by their fields. -/
theorem rangeOfFiniteValues : Obligations.RangeOfFiniteValues := by
  refine ⟨fun data q hq hbexp => ?_, fun data q hq hbexp => ?_, ?_, ?_, ?_, ?_, ?_⟩
  · rw [← bexpOf_eq_slice] at hbexp
    obtain ⟨⟨-, hfrac⟩ | ⟨h0, -⟩, hmag⟩ := of_wordValue_eq_rat hq
    · rw [hmag, hbexp]
      exact magnitude_subnormal_bounds hfrac
    · exact absurd hbexp h0
  · rw [← bexpOf_eq_slice] at hbexp
    obtain ⟨⟨h0, -⟩ | hnormal, hmag⟩ := of_wordValue_eq_rat hq
    · exact absurd h0 hbexp
    · rw [hmag]
      exact magnitude_normalized_bounds hnormal (fracOf data)
  · exact wordValue_packWord_subnormal (sign := 0#1) (frac := 1#23) (by decide) (by norm_num [signFactor])
  · exact wordValue_packWord_subnormal (sign := 0#1) (frac := 0x7FFFFF#23) (by decide)
      (by norm_num [signFactor])
  · exact wordValue_packWord_normalized (sign := 0#1) (bexp := 1#8) (frac := 0#23) (by decide)
      (by norm_num [signFactor])
  · exact wordValue_packWord_normalized (sign := 0#1) (bexp := 254#8) (frac := 0x7FFFFF#23) (by decide)
      (by norm_num [signFactor])
  · exact wordValue_packWord_normalized (sign := 0#1) (bexp := 127#8) (frac := 0#23) (by decide)
      (by norm_num [signFactor])

end Sys2Proof.Machine

/-! PROOFS. The self-check (`42_self_check.md`): NaN-aware equality, what a mismatch changes, and that the
rebuilt word is the buffer's word. -/

namespace Sys2Proof.Machine

/-! ## An accepted buffer rebuilds to itself (rules R96, R100) -/

section
variable (data : Word)

theorem decodeComb_four_recon : (decodeComb data 4).recon = data := by
  rw [decodeComb_four_eq_decodeFields, decodeFields_recon]

theorem decodeComb_four_raw : (decodeComb data 4).raw = data := by
  rw [decodeComb_four_eq_decodeFields]; rfl

theorem decodeComb_four_err : (decodeComb data 4).err = errorCode .none := by
  rw [decodeComb_four_eq_decodeFields]; rfl

end

/-- Settles O21: every class rebuilds the word of its fields (`reconstruct_classify`), so the self-check
compares the buffer's word with itself. -/
theorem reconstructionIsBitIdentical : Obligations.ReconstructionIsBitIdentical := fun data =>
  ⟨decodeComb_four_recon data, decodeComb_four_raw data, decodeComb_four_err data⟩

/-- Settles O22: the word of three fields is `packWord`, which the field extractors undo and the decode
rebuilds; NaN-aware equality is reflexive, so it holds of a NaN too. -/
theorem roundTripOfEveryFieldTriple : Obligations.RoundTripOfEveryFieldTriple := by
  intro sign bexp frac r
  have hrecon : r.recon = packWord sign bexp frac := decodeComb_four_recon _
  have hsign : r.sign = sign := (decodeComb_four_sign _).trans (signOf_packWord sign bexp frac)
  have hbexp : r.bexp = bexp := (decodeComb_four_bexp _).trans (bexpOf_packWord sign bexp frac)
  have hfrac : r.frac = frac := (decodeComb_four_frac _).trans (fracOf_packWord sign bexp frac)
  have heq : nanAwareEq r.recon (packWord sign bexp frac) = true := by
    rw [hrecon]; exact nanAwareEq_refl _
  exact ⟨hsign, hbexp, hfrac, hrecon, heq⟩

/-! ## NaN-aware equality (rule R98) -/

theorem isNan_iff (w : Word) : isNan w = true ↔ bexpOf w = 0xFF#8 ∧ fracOf w ≠ 0#23 := by
  simp [isNan]

theorem nanAwareEq_iff (a b : Word) :
    nanAwareEq a b = true ↔ (isNan a = true ∧ isNan b = true) ∨ a = b := by
  simp [nanAwareEq]

/-- Settles O19: `is_nan` asks for the fields, and the fields are the slices. -/
theorem nanAwareEqualityIsBitwiseBesideNan : Obligations.NanAwareEqualityIsBitwiseBesideNan := by
  intro a b
  rw [nanAwareEq_iff, isNan_iff, isNan_iff]
  simp only [bexpOf_eq_slice, fracOf_eq_slice]

/-! ## The self-check (rules R97 and R99) -/

theorem selfCheck_of_match {r : Result} (h : nanAwareEq r.recon r.raw = true) :
    selfCheck r = report .none r := if_pos h

theorem selfCheck_of_mismatch {r : Result} (h : nanAwareEq r.recon r.raw = false) :
    selfCheck r = report .reconstructionMismatch r := if_neg (by simp [h])

/-- Settles O20: the check reports one of two tags, a report writes `err` alone, and the record is loaded
whichever it is. -/
theorem mismatchIsSurfacedAndKeepsFields : Obligations.MismatchIsSurfacedAndKeepsFields := fun r s =>
  ⟨selfCheck_of_mismatch, selfCheck_of_match, loadResult_valid (selfCheck r) s,
    loadResult_res (selfCheck r) s⟩

end Sys2Proof.Machine

/-! PROOFS. Reset and hazards (`70_reset_and_hazards.md`): RESET, the transition rule on the bits of a
bundle, and the results of a sequence of bundles. -/

namespace Sys2Proof.Machine

/-! ## RESET (rule R122) -/

theorem exec_reset (valid : Bool) (len : Nat) (data : Word) (s : State) :
    exec (.reset valid len data) s = .next (showReset valid len data s) := rfl

/-- With `OUT_REG = 1` a RESET reads none of the other ports (rule R122). -/
theorem showReset_of_outReg {s : State} (h : s.cfg.outReg = true) (valid : Bool) (len : Nat)
    (data : Word) :
    showReset valid len data s = { s with valid := false, res := Result.resetValue } := if_pos h

/-- Settles O2: `showReset` with `OUT_REG = 1`, and the reset record field by field. -/
theorem resetCommandClearsRegisters : Obligations.ResetCommandClearsRegisters := by
  intro valid len data s hreg
  rw [exec_reset, showReset_of_outReg hreg, Result.resetValue]

/-! ## The transition rule (rule R134) -/

section
variable {s : State} {c : Bundle} {rest : List Bundle}

/-- Where `in_valid = 1` and no RESET is selected, a step loads `decode_comb` of the bundle: a DECODE is
the case of length 4 (rules R63, R73), in both realisations. -/
theorem step_of_valid (hin : s.inputs = c :: rest)
    (hreset : ¬(s.cfg.outReg = true ∧ c.testBit (33 + s.cfg.lenW) = true))
    (hvalid : c.testBit (32 + s.cfg.lenW) = true) :
    step s = .next { s with
      inputs := rest
      valid := true
      res := decodeComb (BitVec.ofNat 32 c) (c / 2 ^ 32 % 2 ^ s.cfg.lenW) } := by
  rw [step_cons s c rest hin, ← portsOf_inLen]
  obtain ⟨-, hrst⟩ | ⟨-, -, hidle⟩ | ⟨hc, -, -, hlen⟩ | ⟨hc, -⟩ := decodeBundle_cases s.cfg c
  · exact absurd hrst hreset
  · exact absurd (hidle.symm.trans hvalid) (by decide)
  · rw [hc, hlen]; rfl
  · rw [hc]; rfl

/-- With `OUT_REG = 1` and `rst = 1` a step gives the reset registers, whatever the other ports show
(rules R122, R123). -/
theorem step_reset (hreg : s.cfg.outReg = true) (hin : s.inputs = c :: rest)
    (hrst : c.testBit (33 + s.cfg.lenW) = true) :
    step s = .next { s with inputs := rest, valid := false, res := Result.resetValue } := by
  rw [step_cons s c rest hin, decodeBundle_eq_reset hreg hrst, exec_reset, showReset_of_outReg]
  exact hreg

/-- With `OUT_REG = 0` and `in_valid = 0` the result ports follow the other ports, whatever `rst` is
(rules R18, R124). -/
theorem step_idle_of_not_outReg (hreg : s.cfg.outReg = false) (hin : s.inputs = c :: rest)
    (hvalid : c.testBit (32 + s.cfg.lenW) = false) :
    step s = .next { s with
      inputs := rest
      valid := false
      res := decodeComb (BitVec.ofNat 32 c) (c / 2 ^ 32 % 2 ^ s.cfg.lenW) } := by
  have hc : decodeBundle s.cfg c =
      .idle (portsOf s.cfg.lenW c).inLen (portsOf s.cfg.lenW c).inData := by
    simp [decodeBundle, selectCommand, hreg, show (portsOf s.cfg.lenW c).inValid = false from hvalid]
  rw [step_cons s c rest hin, hc, exec_idle, showIdle_of_not_outReg, ← portsOf_inLen]
  · rfl
  · exact hreg

end

/-- Settles O37: with `OUT_REG = 1` the three rows of the rule, with `OUT_REG = 0` the two values of
`in_valid`, each by its own lemma. -/
theorem stepFollowsTheTransitionRule : Obligations.StepFollowsTheTransitionRule := by
  intro s c rest hin rst valid len data
  cases hreg : s.cfg.outReg
  case false =>
    cases hvalid : valid
    case false => exact step_idle_of_not_outReg hreg hin hvalid
    case true => exact step_of_valid hin (by simp [hreg]) hvalid
  case true =>
    cases hrst : rst
    case true => exact step_reset hreg hin hrst
    case false =>
      cases hvalid : valid
      case false => exact step_idle hreg hin hrst hvalid
      case true => exact step_of_valid hin (fun h => absurd (hrst.symm.trans h.2) (by decide)) hvalid

/-- Settles O3: the bundle's `rst` bit is 1, and `step_reset` reads nothing else of it. -/
theorem resetDominatesDecode : Obligations.ResetDominatesDecode := by
  intro s len data rest hreg hlen hin
  have hrst := bundleOf_testBit_rst (p := ⟨true, true, len, data⟩) hlen
  exact ⟨_, step_reset hreg hin hrst, rfl, rfl, rfl, rfl, rfl, rfl⟩

/-! ## A sequence of bundles (rules R41, R130) -/

section
variable {s : State} {c : Bundle} {rest : List Bundle}

/-- Where RESET is selected or `in_valid = 0`, the bundle alone gives no result. -/
theorem bundleResult_eq_none {cfg : Params}
    (h : cfg.outReg = true ∧ c.testBit (33 + cfg.lenW) = true ∨ c.testBit (32 + cfg.lenW) = false) :
    bundleResult cfg c = none := by
  obtain ⟨hreg, hrst⟩ | hvalid := h
  · simp [bundleResult, portsOf, hreg, hrst]
  · simp [bundleResult, portsOf, hvalid]

/-- Where `in_valid = 1` and no RESET is selected, the bundle alone gives its decode. -/
theorem bundleResult_of_valid {cfg : Params}
    (hreset : ¬(cfg.outReg = true ∧ c.testBit (33 + cfg.lenW) = true))
    (hvalid : c.testBit (32 + cfg.lenW) = true) :
    bundleResult cfg c = some (decodeComb (BitVec.ofNat 32 c) (c / 2 ^ 32 % 2 ^ cfg.lenW)) := by
  rw [← portsOf_inLen]
  simp [bundleResult, portsOf, hreset, hvalid]

/-- One step takes one bundle and offers what that bundle gives alone, whatever the registers held. -/
theorem step_offers_bundleResult (hin : s.inputs = c :: rest) :
    ∃ t, step s = .next t ∧ t.cfg = s.cfg ∧ t.inputs = rest ∧
      t.outputs.offered = bundleResult s.cfg c := by
  by_cases hreset : s.cfg.outReg = true ∧ c.testBit (33 + s.cfg.lenW) = true
  · exact ⟨_, step_reset hreset.1 hin hreset.2, rfl, rfl, (bundleResult_eq_none (.inl hreset)).symm⟩
  cases hvalid : c.testBit (32 + s.cfg.lenW)
  case true =>
    exact ⟨_, step_of_valid hin hreset hvalid, rfl, rfl, (bundleResult_of_valid hreset hvalid).symm⟩
  case false =>
    have hnone := (bundleResult_eq_none (cfg := s.cfg) (.inr hvalid)).symm
    cases hreg : s.cfg.outReg
    case false => exact ⟨_, step_idle_of_not_outReg hreg hin hvalid, rfl, rfl, hnone⟩
    case true =>
      have hrst : c.testBit (33 + s.cfg.lenW) = false := by simpa [hreg] using hreset
      exact ⟨_, step_idle hreg hin hrst hvalid, rfl, rfl, hnone⟩

end

theorem offeredResults_succ_of_next {s t : State} (h : step s = .next t) (n : Nat) :
    offeredResults (n + 1) s = t.outputs.offered :: offeredResults n t := by
  simp only [offeredResults, observations, h, List.map_cons]

/-- Settles O45, by induction on the bundles: each step offers its own bundle's result and leaves the
parameters that the later ones are read with. -/
theorem resultsComeInOrderAsIfAlone : Obligations.ResultsComeInOrderAsIfAlone := by
  intro cs rest s hin
  induction cs generalizing s with
  | nil => rfl
  | cons c cs ih =>
    obtain ⟨t, hstep, hcfg, hinputs, hoffered⟩ := step_offers_bundleResult hin
    rw [List.length_cons, offeredResults_succ_of_next hstep, hoffered, ih t hinputs, hcfg, List.map_cons]

end Sys2Proof.Machine

/-! PROOFS. The encodings, decoder against encoder (`30_encoding.md` sections 1, 2, 5 and 6): the bytes of
an instruction, the bundle of a command, the lines of the text, and table rows that are presented. -/

namespace Sys2Proof

/-! ## The decoder on each of its two formats -/

/-- Bytes that are no buffer are told by their number, and by the bits above the bundle. -/
theorem decodeBytes_of_length_ne_four (cfg : Params) {bs : List Byte} (h : bs.length ≠ 4) :
    decodeBytes cfg bs =
      if bs.length = bundleBytes cfg.lenW then
        if natOfBytes bs < 2 ^ (34 + cfg.lenW) then .ok (decodeBundle cfg (natOfBytes bs))
        else .error .bitAboveBundle
      else .error .wrongByteCount := by
  unfold decodeBytes
  split
  next => exact absurd rfl h
  next => rfl

/-- Settles O51: the three arms of `decodeBytes_of_length_ne_four`. -/
theorem otherByteListsAreRejected : Obligations.OtherByteListsAreRejected := by
  intro cfg bs _ h4
  rw [decodeBytes_of_length_ne_four cfg h4]
  refine ⟨fun hcount => if_neg hcount, fun hcount hbits => ?_, fun hcount hbits => ?_⟩
  · rw [if_pos hcount, if_neg hbits.not_gt]
  · rw [if_pos hcount, if_pos hbits]

/-- A buffer decodes to the instruction of its word's class. -/
theorem decodeBytes_bufferBytes (cfg : Params) (w : Word) :
    decodeBytes cfg (bufferBytes w) = .ok (classInstr (Machine.wordClass w) w) := by
  simp only [decodeBytes, bufferBytes, assemble_lanes, Machine.decodeWord_eq]

theorem legal_iff (cfg : Params) : cfg.legal = true ↔ 3 ≤ cfg.lenW := decide_eq_true_iff

/-- A bundle never has the four bytes of a buffer (rule R7). -/
theorem bundleBytes_ne_four {cfg : Params} (h : cfg.legal = true) : bundleBytes cfg.lenW ≠ 4 := by
  rw [legal_iff] at h
  rw [bundleBytes]
  omega

/-- The port shows the length of a buffer (rule R7). -/
theorem four_lt_two_pow_lenW {cfg : Params} (h : cfg.legal = true) : 4 < 2 ^ cfg.lenW :=
  calc 4
    _ < 2 ^ 3 := by decide
    _ ≤ 2 ^ cfg.lenW := Nat.pow_le_pow_right two_pos ((legal_iff cfg).mp h)

/-- A bundle fits its bytes. -/
theorem two_pow_le_bundleBytes (lenW : Nat) : 2 ^ (34 + lenW) ≤ 256 ^ bundleBytes lenW :=
  calc 2 ^ (34 + lenW)
    _ ≤ 2 ^ (8 * bundleBytes lenW) := Nat.pow_le_pow_right two_pos (by rw [bundleBytes]; omega)
    _ = 256 ^ bundleBytes lenW := Nat.pow_mul 2 8 _

/-- The bytes of a bundle decode to its command. -/
theorem decodeBytes_bytesOfNat {cfg : Params} {c : Bundle} (hlegal : cfg.legal = true)
    (hc : c < 2 ^ (34 + cfg.lenW)) :
    decodeBytes cfg (bytesOfNat (bundleBytes cfg.lenW) c) = .ok (decodeBundle cfg c) := by
  have hlength := bytesOfNat_length (bundleBytes cfg.lenW) c
  have hne4 : (bytesOfNat (bundleBytes cfg.lenW) c).length ≠ 4 := by
    rw [hlength]; exact bundleBytes_ne_four hlegal
  have hnat : natOfBytes (bytesOfNat (bundleBytes cfg.lenW) c) = c := by
    rw [natOfBytes_bytesOfNat, Nat.mod_eq_of_lt (hc.trans_le (two_pow_le_bundleBytes _))]
  rw [decodeBytes_of_length_ne_four cfg hne4, if_pos hlength, hnat, if_pos hc]

/-! ## Commands and ports (rule R45) -/

/-- The bundle of ports selects their command. -/
theorem decodeBundle_bundleOf {cfg : Params} {p : Ports} (hlen : p.inLen < 2 ^ cfg.lenW) :
    decodeBundle cfg (bundleOf cfg.lenW p) = selectCommand cfg.outReg p := by
  rw [decodeBundle, portsOf_bundleOf hlen]

/-- The command that ports select keeps all of them as operands (log 7). -/
theorem encodePorts_selectCommand (p : Ports) : encodePorts (selectCommand true p) = p := by
  obtain ⟨rst, valid, len, data⟩ := p
  cases rst
  case true => rfl
  cases valid
  case false => rfl
  by_cases h : len = 4
  · subst h; rfl
  · have hc : selectCommand true ⟨false, true, len, data⟩ = .decodeBadlen len data := by
      simp [selectCommand, h]
    rw [hc]; rfl

theorem selectCommand_wf {cfg : Params} (hreg : cfg.outReg = true) {p : Ports}
    (hlen : p.inLen < 2 ^ cfg.lenW) : (selectCommand true p).wf cfg = true := by
  unfold selectCommand
  split_ifs with hrst hvalid h4
  · simp [Instr.wf, hreg, hlen]
  · simp [Instr.wf, hlen]
  · rfl
  · simpa [Instr.wf, hlen] using h4

/-- The two topmost bits of a number, cut off from the rest. -/
theorem div_two_pow_eq_two_bits {m k : Nat} (h : m < 2 ^ (k + 2)) :
    m / 2 ^ k = (m.testBit k).toNat + 2 * (m.testBit (k + 1)).toNat := by
  rw [Machine.div_two_pow_eq_add_testBit m k, Machine.div_two_pow_eq_add_testBit m (k + 1),
    Nat.div_eq_of_lt h, Nat.mul_zero, Nat.zero_add, Nat.add_comm]

/-- Putting a bundle's ports together again gives the bundle (rule R44). -/
theorem bundleOf_portsOf {lenW : Nat} {c : Bundle} (hc : c < 2 ^ (34 + lenW)) :
    bundleOf lenW (portsOf lenW c) = c := by
  have hflags : c / 2 ^ 32 / 2 ^ lenW =
      (c.testBit (32 + lenW)).toNat + 2 * (c.testBit (33 + lenW)).toNat := by
    rw [Nat.div_div_eq_div_mul, ← Nat.pow_add, show 33 + lenW = 32 + lenW + 1 by omega]
    exact div_two_pow_eq_two_bits (by convert hc using 2; omega)
  calc bundleOf lenW (portsOf lenW c)
    _ = c % 2 ^ 32 + 2 ^ 32 * (c / 2 ^ 32 % 2 ^ lenW + 2 ^ lenW * (c / 2 ^ 32 / 2 ^ lenW)) := by
      rw [bundleOf, portsOf_inLen, hflags]; rfl
    _ = c := by rw [Nat.mod_add_div, Nat.mod_add_div]

/-- Settles O47: ports, command and bundle determine one another (`encodePorts_selectCommand`,
`bundleOf_portsOf`). -/
theorem everyBundleIsOneCommand : Obligations.EveryBundleIsOneCommand := by
  intro cfg c hreg _ hc
  have hlen : (portsOf cfg.lenW c).inLen < 2 ^ cfg.lenW := Nat.mod_lt _ (by positivity)
  rw [decodeBundle, hreg]
  refine ⟨selectCommand_wf hreg hlen, ?_⟩
  rw [encodeBundle, encodePorts_selectCommand, bundleOf_portsOf hc]

/-! ## Decode of encode (rule R60) -/

namespace Machine

/-- The word of a class instruction decodes to it (rule R54). -/
theorem decodeWord_wordOf {cfg : Params} {i : Instr} {cls : Class} (hi : classOf i = some cls)
    (hwf : i.wf cfg = true) : decodeWord (wordOf i) = some i := by
  cases i with
  | reset _ _ _ | idle _ _ | decode _ | decodeBadlen _ _ => cases hi
  | zero sign => simp [decodeWord_eq_zero_iff, wordOf]
  | subnormal sign frac =>
    have hfrac : frac ≠ 0#23 := bne_iff_ne.mp hwf
    simp [decodeWord_eq_subnormal_iff, wordOf, hfrac]
  | normalized sign bexp frac =>
    have hbexp : bexp ≠ 0#8 ∧ bexp ≠ 255#8 := by simpa [Instr.wf] using hwf
    simpa [decodeWord_eq_normalized_iff, wordOf] using (bexp_normal_iff bexp).mp hbexp
  | posInf => exact (decodeWord_eq_posInf_iff _).mpr rfl
  | negInf => exact (decodeWord_eq_negInf_iff _).mpr rfl
  | nan sign frac =>
    have hfrac : frac ≠ 0#23 := bne_iff_ne.mp hwf
    simp [decodeWord_eq_nan_iff, wordOf, hfrac]

/-- The class rows' format. -/
theorem decodeBytes_encode_of_class {cfg : Params} {i : Instr} {cls : Class}
    (hi : classOf i = some cls) (hwf : i.wf cfg = true) : decodeBytes cfg (encode cfg i) = .ok i := by
  have hword : classInstr (wordClass (wordOf i)) (wordOf i) = i :=
    Option.some.inj ((decodeWord_eq _).symm.trans (decodeWord_wordOf hi hwf))
  have hbytes : encode cfg i = bufferBytes (wordOf i) := by
    cases i with
    | reset _ _ _ | idle _ _ | decode _ | decodeBadlen _ _ => cases hi
    | _ => rfl
  rw [hbytes, decodeBytes_bufferBytes, hword]

/-- The ports of a well-formed command select it again, and its length fits the port. -/
theorem selectCommand_encodePorts {cfg : Params} {i : Instr} (hlegal : cfg.legal = true)
    (hi : classOf i = none) (hwf : i.wf cfg = true) :
    selectCommand cfg.outReg (encodePorts i) = i ∧ (encodePorts i).inLen < 2 ^ cfg.lenW := by
  cases i with
  | reset valid len data =>
    obtain ⟨hreg, hlen⟩ : cfg.outReg = true ∧ len < 2 ^ cfg.lenW := by simpa [Instr.wf] using hwf
    exact ⟨by rw [hreg]; rfl, hlen⟩
  | idle len data => exact ⟨by simp [selectCommand, encodePorts], of_decide_eq_true hwf⟩
  | decode data => exact ⟨by simp [selectCommand, encodePorts], four_lt_two_pow_lenW hlegal⟩
  | decodeBadlen len data =>
    obtain ⟨hlen, h4⟩ : len < 2 ^ cfg.lenW ∧ len ≠ 4 := by simpa [Instr.wf] using hwf
    exact ⟨by simp [selectCommand, encodePorts, h4], hlen⟩
  | _ => cases hi

/-- The command rows' format. -/
theorem decodeBytes_encode_of_command {cfg : Params} {i : Instr} (hlegal : cfg.legal = true)
    (hi : classOf i = none) (hwf : i.wf cfg = true) : decodeBytes cfg (encode cfg i) = .ok i := by
  obtain ⟨hcommand, hlen⟩ := selectCommand_encodePorts hlegal hi hwf
  have hbundle : decodeBundle cfg (encodeBundle cfg i) = i :=
    (decodeBundle_bundleOf hlen).trans hcommand
  have hbytes : encode cfg i = bytesOfNat (bundleBytes cfg.lenW) (encodeBundle cfg i) := by
    cases i with
    | reset _ _ _ | idle _ _ | decode _ | decodeBadlen _ _ => rfl
    | _ => cases hi
  rw [hbytes, decodeBytes_bytesOfNat hlegal (c := encodeBundle cfg i) (bundleOf_lt hlen), hbundle]

end Machine

/-- Settles O46: a command by its bundle, a class instruction by its buffer. -/
theorem decodeOfEncodeIsTheInstruction : Obligations.DecodeOfEncodeIsTheInstruction := by
  intro cfg i hlegal hwf
  cases hi : Machine.classOf i with
  | none => exact Machine.decodeBytes_encode_of_command hlegal hi hwf
  | some cls => exact Machine.decodeBytes_encode_of_class hi hwf

/-- Settles O50: the decoder run on each word. -/
theorem specWordsDecodeToTheirRows : Obligations.SpecWordsDecodeToTheirRows := by
  unfold Obligations.SpecWordsDecodeToTheirRows
  decide

/-! ## The lines of the text (rule R57) -/

/-- A line that presents given ports presents their command. -/
theorem map_decodeBundle_eq {cfg : Params} {line : Machine.CommandLine} {p : Ports}
    (hline : Machine.lineBundle cfg.lenW line = some (bundleOf cfg.lenW p))
    (hlen : p.inLen < 2 ^ cfg.lenW) :
    (Machine.lineBundle cfg.lenW line).map (decodeBundle cfg) = some (selectCommand cfg.outReg p) := by
  rw [hline, Option.map_some, decodeBundle_bundleOf hlen]

/-- A `DECODE.LEN` line presents the length where the port can show it (rule R65). -/
theorem lineBundle_decodeLen {lenW n : Nat} (h : n < 2 ^ lenW) (b0 b1 b2 b3 : Byte) :
    Machine.lineBundle lenW (.decodeLen n b0 b1 b2 b3) =
      some (bundleOf lenW ⟨false, true, n, assemble b0 b1 b2 b3⟩) := if_pos h

/-- Settles O53: each line's ports, and the command that they select. -/
theorem commandLinesPresentTheirCommands : Obligations.CommandLinesPresentTheirCommands := by
  intro cfg n b0 b1 b2 b3 c hreg hlegal
  have h0 : 0 < 2 ^ cfg.lenW := by positivity
  have h4 := four_lt_two_pow_lenW hlegal
  refine ⟨?_, ?_, ?_, fun hn hn4 => ?_, fun hn hn4 => ?_, fun hn => if_neg hn.not_gt, fun hc => if_pos hc⟩
  · rw [map_decodeBundle_eq rfl h0, hreg]; rfl
  · rw [map_decodeBundle_eq rfl h0, hreg]; rfl
  · rw [map_decodeBundle_eq rfl h4, hreg]; rfl
  · rw [map_decodeBundle_eq (lineBundle_decodeLen hn b0 b1 b2 b3) hn, hreg, hn4]; rfl
  · rw [map_decodeBundle_eq (lineBundle_decodeLen hn b0 b1 b2 b3) hn, hreg]
    simp [selectCommand, hn4, assemble]

end Sys2Proof

/-! PROOFS. What every instruction and every step does to the state (`10_state.md`,
`70_reset_and_hazards.md`): the frame, what a step may leave in the output stage, and the invariant. -/

namespace Sys2Proof.Machine

/-! ## Instructions (rules R13, R25) -/

/-- Settles O39: `showReset` and `showIdle` by their field lemmas, and every other meaning is a
`loadResult`. -/
theorem everyInstructionCompletesWithItsFrame : Obligations.EveryInstructionCompletesWithItsFrame := by
  intro i s
  cases i with
  | reset valid len data =>
    exact ⟨_, exec_reset valid len data s, showReset_cfg .., showReset_inputs .., showReset_draws ..,
      fun h => nomatch h⟩
  | idle len data =>
    exact ⟨_, exec_idle len data s, showIdle_cfg .., showIdle_inputs .., showIdle_draws ..,
      fun _ => showIdle_valid ..⟩
  | _ => exact ⟨_, rfl, rfl, rfl, rfl, fun _ => rfl⟩

theorem showReset_of_not_outReg {s : State} (h : s.cfg.outReg = false) (valid : Bool) (len : Nat)
    (data : Word) :
    showReset valid len data s = { s with valid := valid, res := decodeComb data len } :=
  if_neg (by simp [h])

/-- Settles O4: `showReset` with `OUT_REG = 0`. -/
theorem resetTermWithoutRegister : Obligations.ResetTermWithoutRegister := by
  intro valid len data s hreg
  rw [exec_reset, showReset_of_not_outReg hreg]

/-! ## The step (rules R129, R134) -/

/-- A step with no bundle presented runs a free one (log 2). -/
theorem step_nil (s : State) (h : s.inputs = []) :
    step s = exec (decodeBundle s.cfg (Config.freeBundle s.draws % 2 ^ (34 + s.cfg.lenW)))
      { s with draws := s.draws + 1 } := by
  simp only [step, takeBundle_nil s h]

/-- Settles O36: `step_cons` and `step_nil`. -/
theorem stepRunsTheDecodedCommand : Obligations.StepRunsTheDecodedCommand := fun s =>
  ⟨step_cons s, step_nil s⟩

/-- Settles O38: the command completes, and only `takeBundle` touches the presented bundles. -/
theorem stepNeverStops : Obligations.StepNeverStops := by
  intro s
  obtain ⟨t, hexec, hcfg, hinputs, -⟩ := everyInstructionCompletesWithItsFrame
    (decodeBundle s.cfg (takeBundle s).1) (takeBundle s).2
  exact ⟨t, hexec, hcfg.trans (takeBundle_cfg s), hinputs.trans (takeBundle_inputs s)⟩

theorem step_cfg {s t : State} (h : step s = .next t) : t.cfg = s.cfg := by
  obtain ⟨t', hstep, hcfg, -⟩ := stepNeverStops s
  cases hstep.symm.trans h
  exact hcfg

/-- What a step leaves in the output stage: the old record or the reset record under `valid = 0`, or a
value of `decode_comb`. -/
theorem step_output_cases {s t : State} (h : step s = .next t) :
    (t.valid = false ∧ t.res = s.res) ∨ (t.valid = false ∧ t.res = Result.resetValue) ∨
      ∃ data len, t.res = decodeComb data len := by
  unfold step at h
  generalize (takeBundle s).1 = c at h
  obtain ⟨hc, hreg, -⟩ | ⟨hc, -⟩ | ⟨hc, -⟩ | ⟨hc, -⟩ := decodeBundle_cases s.cfg c
    <;> rw [hc] at h <;> cases h
  · refine .inr (.inl ⟨?_, ?_⟩)
    · rw [showReset_valid, takeBundle_cfg, hreg]; rfl
    · rw [showReset_res, takeBundle_cfg, hreg]; rfl
  · cases hreg : s.cfg.outReg
    case true =>
      refine .inl ⟨showIdle_valid .., ?_⟩
      rw [showIdle_res, takeBundle_cfg, hreg, if_pos rfl, takeBundle_res]
    case false =>
      refine .inr (.inr ⟨(portsOf s.cfg.lenW c).inData, (portsOf s.cfg.lenW c).inLen, ?_⟩)
      rw [showIdle_res, takeBundle_cfg, hreg]; rfl
  · exact .inr (.inr ⟨_, _, loadResult_res ..⟩)
  · exact .inr (.inr ⟨_, _, loadResult_res ..⟩)

/-! ## The invariant -/

theorem Result.coherent_iff (r : Result) :
    r.coherent = true ↔
      r = Result.resetValue ∨ r = decodeComb 0#32 0 ∨ r = decodeComb r.raw 4 := by
  simp [Result.coherent, or_assoc]

theorem State.inv_iff (s : State) :
    s.inv = true ↔ s.cfg.legal = true ∧ s.res.coherent = true ∧
      (s.valid = true → s.res ≠ Result.resetValue) := by
  cases hvalid : s.valid <;> simp [State.inv, hvalid, and_assoc]

/-- `decode_comb` echoes an accepted word in `raw`, and a bad length has one record. -/
theorem coherent_decodeComb (data : Word) (len : Nat) : (decodeComb data len).coherent = true := by
  rw [Result.coherent_iff]
  by_cases hlen : len = 4
  · subst hlen
    exact .inr (.inr (by rw [decodeComb_four_raw]))
  · exact .inr (.inl (by rw [decodeComb_badlen hlen, decodeComb_badlen (by decide)]))

theorem coherent_resetValue : Result.resetValue.coherent = true :=
  (Result.coherent_iff _).mpr (.inl rfl)

/-- Registers as after a reset edge meet the invariant, whatever is presented. -/
theorem inv_of_reset_registers {s : State} (hlegal : s.cfg.legal = true) (hvalid : s.valid = false)
    (hres : s.res = Result.resetValue) : s.inv = true := by
  rw [State.inv_iff, hres]
  exact ⟨hlegal, coherent_resetValue, fun h => absurd (hvalid.symm.trans h) (by decide)⟩

/-- Settles O40: `inv_of_reset_registers`, with the parameters of the spec. -/
theorem resetStateMeetsTheInvariant : Obligations.ResetStateMeetsTheInvariant :=
  inv_of_reset_registers (by decide) rfl rfl

/-- Settles O41: each record that a step may leave (`step_output_cases`) is one that the block writes, and
the reset record never comes from `decode_comb`. -/
theorem stepKeepsTheInvariant : Obligations.StepKeepsTheInvariant := by
  intro s t hinv hstep
  obtain ⟨hlegal, hcoherent, -⟩ := (State.inv_iff s).mp hinv
  have hlegal' : t.cfg.legal = true := by rw [step_cfg hstep, hlegal]
  obtain ⟨hvalid, hres⟩ | ⟨hvalid, hres⟩ | ⟨data, len, hres⟩ := step_output_cases hstep
  · rw [State.inv_iff, hres]
    exact ⟨hlegal', hcoherent, fun h => absurd (hvalid.symm.trans h) (by decide)⟩
  · exact inv_of_reset_registers hlegal' hvalid hres
  · rw [State.inv_iff, hres]
    exact ⟨hlegal', coherent_decodeComb data len, fun _ => decodeComb_ne_resetValue data len⟩

theorem classCode_toNat_le (cls : Class) : (classCode cls).toNat ≤ 5 := by
  cases cls <;> decide

/-- Settles O42: the three records that the block writes, one by one; the reset record is not valid. -/
theorem invariantRulesOutReservedCodes : Obligations.InvariantRulesOutReservedCodes := by
  intro s hinv
  obtain ⟨-, hcoherent, hvalid⟩ := (State.inv_iff s).mp hinv
  obtain hres | hres | hres := (Result.coherent_iff _).mp hcoherent
  · rw [hres]
    exact ⟨by decide, by decide, by decide, fun h => absurd hres (hvalid h)⟩
  · rw [hres, decodeComb_badlen (by decide)]
    exact ⟨by decide, by decide, by decide, fun _ => .inl ⟨rfl, rfl⟩⟩
  · have hcls : s.res.cls = classCode (wordClass s.res.raw) := by
      rw [← decodeComb_four_cls, ← hres]
    have herr : s.res.err = 0#2 := by rw [hres]; exact decodeComb_four_err _
    have hrecon : s.res.recon = s.res.raw := by
      conv_lhs => rw [hres]
      exact decodeComb_four_recon _
    rw [hcls, herr]
    exact ⟨(classCode_ne _).1, by decide, by decide, fun _ => .inr ⟨rfl, classCode_toNat_le _, hrecon⟩⟩

/-! ## Reset, and registers that no step reads (rules R30, R125, R126) -/

/-- Settles O43: `step_reset` reads no register. -/
theorem oneResetEdgeInitialisesAnyState : Obligations.OneResetEdgeInitialisesAnyState := by
  constructor
  · intro s c rest hreg hlegal hin hrst
    exact ⟨_, step_reset hreg hin hrst, inv_of_reset_registers hlegal rfl rfl, rfl⟩
  · intro cfg valid res c hreg hrst
    exact step_reset hreg rfl hrst

/-- Settles O44: in each row of the transition rule but the one that holds the registers, the next state is
written without them. -/
theorem stepReadsNoRegister : Obligations.StepReadsNoRegister := by
  intro s valid res c rest hin hground
  rw [stepFollowsTheTransitionRule s c rest hin,
    stepFollowsTheTransitionRule { s with valid := valid, res := res } c rest hin]
  obtain hreg | hrst | hvalid := hground
  · simp only [hreg]; rfl
  · simp only [hrst]; rfl
  · simp only [hvalid]; rfl

end Sys2Proof.Machine

/-! PROOFS. Runs and their observation (`70_reset_and_hazards.md` rule R135). -/

namespace Sys2Proof.Machine

theorem observations_succ_of_next {s t : State} (h : step s = .next t) (n : Nat) :
    observations (n + 1) s = t.outputs :: observations n t := by
  simp only [observations, h]

/-- The state that a run reaches keeps the parameters and has its bundles taken. -/
theorem afterSteps_exists (n : Nat) (s : State) :
    ∃ t, afterSteps n s = some t ∧ t.cfg = s.cfg ∧ t.inputs = s.inputs.drop n := by
  induction n generalizing s with
  | zero => exact ⟨s, rfl, rfl, rfl⟩
  | succ n ih =>
    obtain ⟨t, hstep, hcfg, hinputs⟩ := stepNeverStops s
    obtain ⟨u, hafter, hcfg', hinputs'⟩ := ih t
    refine ⟨u, (afterSteps_succ_of_next hstep n).trans hafter, hcfg'.trans hcfg, ?_⟩
    rw [hinputs', hinputs, List.drop_tail]

@[simp] theorem observations_length (n : Nat) (s : State) : (observations n s).length = n := by
  induction n generalizing s with
  | zero => rfl
  | succ n ih =>
    obtain ⟨t, hstep, -⟩ := stepNeverStops s
    rw [observations_succ_of_next hstep, List.length_cons, ih]

/-- The last output values are those of the state reached. -/
theorem observations_getLast? {n : Nat} {s t : State} (h : afterSteps (n + 1) s = some t) :
    (observations (n + 1) s).getLast? = some t.outputs := by
  induction n generalizing s with
  | zero =>
    obtain ⟨u, hstep, -⟩ := stepNeverStops s
    obtain rfl : u = t := Option.some.inj ((afterSteps_succ_of_next hstep 0).symm.trans h)
    rw [observations_succ_of_next hstep]; rfl
  | succ n ih =>
    obtain ⟨u, hstep, -⟩ := stepNeverStops s
    have hlast := ih ((afterSteps_succ_of_next hstep (n + 1)).symm.trans h)
    rw [observations_succ_of_next hstep, List.getLast?_cons, hlast]; rfl

/-- Settles O57: the state reached (`afterSteps_exists`) and the observation, each by induction on the
edges. -/
theorem blockNeverHalts : Obligations.BlockNeverHalts := by
  intro n s
  obtain ⟨t, hafter, hcfg, hinputs⟩ := afterSteps_exists n s
  refine ⟨t, hafter, observations_length n s, fun hpos => ?_, hcfg, hinputs⟩
  obtain ⟨m, rfl⟩ := Nat.exists_eq_add_one_of_ne_zero hpos.ne'
  exact observations_getLast? hafter

/-! ## Without the register (rule R18) -/

/-- With `OUT_REG = 0` a step shows its bundle's flag and decode. -/
theorem step_of_not_outReg {s : State} {c : Bundle} {rest : List Bundle} (hreg : s.cfg.outReg = false)
    (hin : s.inputs = c :: rest) :
    step s = .next { s with
      inputs := rest
      valid := c.testBit (32 + s.cfg.lenW)
      res := decodeComb (BitVec.ofNat 32 c) (c / 2 ^ 32 % 2 ^ s.cfg.lenW) } := by
  rw [stepFollowsTheTransitionRule s c rest hin]
  exact if_neg (by simp [hreg])

/-- Settles O56, by induction on the inputs: each shows its own values and leaves the parameters. -/
theorem observationWithoutRegister : Obligations.ObservationWithoutRegister := by
  intro cs rest s hreg hin
  induction cs generalizing s with
  | nil => rfl
  | cons c cs ih =>
    have hstep := step_of_not_outReg hreg hin
    rw [List.length_cons, observations_succ_of_next hstep, ih _ (by exact hreg) rfl, List.map_cons]
    rfl

/-! ## From a reset edge (rule R21)

The registers hold the latest decode of the bundles sampled so far, which are `past`, the newest first. -/

/-- One edge more: `out_valid` tells a decode, and the fields are the latest decode's. -/
theorem step_shows_heldResult {s : State} {c : Bundle} {rest past : List Bundle}
    (hreg : s.cfg.outReg = true) (hin : s.inputs = c :: rest) (hheld : s.res = heldResult s.cfg past) :
    ∃ t, step s = .next t ∧ t.cfg = s.cfg ∧ t.inputs = rest ∧
      t.outputs = ⟨(bundleResult s.cfg c).isSome, heldResult s.cfg (c :: past)⟩ := by
  cases hrst : c.testBit (33 + s.cfg.lenW)
  case true =>
    refine ⟨_, step_reset hreg hin hrst, rfl, rfl, ?_⟩
    rw [bundleResult_eq_none (.inl ⟨hreg, hrst⟩)]
    simp [State.outputs, heldResult, portsOf, hrst]
  case false =>
    cases hvalid : c.testBit (32 + s.cfg.lenW)
    case true =>
      have hreset : ¬(s.cfg.outReg = true ∧ c.testBit (33 + s.cfg.lenW) = true) := by simp [hrst]
      refine ⟨_, step_of_valid hin hreset hvalid, rfl, rfl, ?_⟩
      rw [bundleResult_of_valid hreset hvalid, ← portsOf_inLen]
      simp [State.outputs, heldResult, portsOf, hrst, hvalid]
    case false =>
      refine ⟨_, step_idle hreg hin hrst hvalid, rfl, rfl, ?_⟩
      rw [bundleResult_eq_none (.inr hvalid)]
      simp [State.outputs, heldResult, portsOf, hrst, hvalid, hheld]

/-- The output values after any edge, by induction on the bundles before it. -/
theorem observations_getElem?_of_held {older newer past : List Bundle} {c : Bundle} {s : State} {n : Nat}
    (hreg : s.cfg.outReg = true) (hin : s.inputs = older ++ c :: newer)
    (hheld : s.res = heldResult s.cfg past) (hn : older.length < n) :
    (observations n s)[older.length]? =
      some ⟨(bundleResult s.cfg c).isSome, heldResult s.cfg (c :: (older.reverse ++ past))⟩ := by
  obtain ⟨n, rfl⟩ := Nat.exists_eq_add_one_of_ne_zero (Nat.ne_zero_of_lt hn)
  induction older generalizing s past n with
  | nil =>
    obtain ⟨t, hstep, -, -, hout⟩ := step_shows_heldResult hreg hin hheld
    rw [observations_succ_of_next hstep, hout]; rfl
  | cons d older ih =>
    obtain ⟨t, hstep, hcfg, hinputs, hout⟩ := step_shows_heldResult hreg hin hheld
    have hlater : older.length < n := Nat.succ_lt_succ_iff.mp hn
    obtain ⟨m, rfl⟩ := Nat.exists_eq_add_one_of_ne_zero (Nat.ne_zero_of_lt hlater)
    have hheld' : t.res = heldResult t.cfg (d :: past) := by
      rw [← State.outputs_res, hout, hcfg]
    rw [observations_succ_of_next hstep, List.length_cons, List.getElem?_cons_succ,
      ih (hcfg ▸ hreg) hinputs hheld' m hlater, hcfg, List.reverse_cons, List.append_assoc]
    rfl

/-- Settles O55: `observations_getElem?_of_held`, where the reset record is the result of no bundles. -/
theorem observationOfARunFromReset : Obligations.ObservationOfARunFromReset := by
  intro cfg cs rest draws hreg obs
  refine ⟨observations_length .., ?_⟩
  rintro older newer c rfl
  have hin : (older ++ c :: newer) ++ rest = older ++ c :: (newer ++ rest) := by simp
  have hshown := observations_getElem?_of_held (past := []) (n := (older ++ c :: newer).length)
    (s := { State.reset with cfg := cfg, inputs := (older ++ c :: newer) ++ rest, draws := draws })
    hreg hin rfl (by simp)
  rwa [List.append_nil] at hshown

end Sys2Proof.Machine

/-! PROOFS. DECODE and the class instructions (`30_encoding.md` section 6, `41_classify.md`): a DECODE runs
the class instruction of its word, presented table rows, terms that are not well-formed, and the domain of
the values. -/

namespace Sys2Proof.Machine

/-! ## A DECODE runs its class (rules R77 to R82) -/

/-- The record of a class, from the class's own rule. -/
def classResult (sign : BitVec 1) (bexp : BitVec 8) (frac : BitVec 23) : Class → Result
  | .zero             => zeroResult sign
  | .subnormal        => subnormalResult sign frac
  | .normalized       => normalizedResult sign bexp frac
  | .positiveInfinity => posInfResult
  | .negativeInfinity => negInfResult
  | .nan              => nanResult sign frac

theorem exec_classInstr (cls : Class) (w : Word) (s : State) :
    exec (classInstr cls w) s =
      .next (loadResult (classResult (signOf w) (bexpOf w) (fracOf w) cls) s) := by
  cases cls <;> rfl

/-- Where a class accepts the fields, its own record is the one that `decode_comb` makes of their word. -/
theorem decodeFields_eq_classResult {sign : BitVec 1} {bexp : BitVec 8} {frac : BitVec 23} {cls : Class}
    (h : cls.accepts sign bexp frac) :
    decodeFields (packWord sign bexp frac) = classResult sign bexp frac cls := by
  have hcls : classify sign bexp frac = cls := (classify_eq_iff_accepts cls).mpr h
  simp only [decodeFields, signOf_packWord, bexpOf_packWord, fracOf_packWord, hcls]
  cases cls with
  | zero => obtain ⟨rfl, rfl⟩ := h; rfl
  | subnormal => obtain ⟨rfl, -⟩ := h; rfl
  | normalized =>
    rw [(effectiveExponentOk_iff bexp).mpr h, unpackedExponent_of_ne h.1]; rfl
  | positiveInfinity => obtain ⟨rfl, rfl, rfl⟩ := h; rfl
  | negativeInfinity => obtain ⟨rfl, rfl, rfl⟩ := h; rfl
  | nan => obtain ⟨rfl, -⟩ := h; rfl

theorem exec_decode_eq_exec_classInstr (w : Word) (s : State) :
    exec (.decode w) s = exec (classInstr (wordClass w) w) s := by
  have hrecord := decodeFields_eq_classResult (wordClass_accepts w)
  rw [packWord_fields] at hrecord
  rw [exec_decode, exec_classInstr, hrecord]

/-- The operands that a word of a class gives are operands of the class. -/
theorem classInstr_wf {cls : Class} {w : Word} (h : cls.accepts (signOf w) (bexpOf w) (fracOf w))
    (cfg : Params) : (classInstr cls w).wf cfg = true := by
  cases cls with
  | subnormal => exact bne_iff_ne.mpr h.2
  | normalized =>
    obtain ⟨h0, h255⟩ := h
    simp [classInstr, Instr.wf, h0, h255]
  | nan => exact bne_iff_ne.mpr h.2
  | _ => rfl

/-- Settles O16: the selecting row is the row of the word's class, and that class accepts the fields. -/
theorem decodeRunsItsClass : Obligations.DecodeRunsItsClass := fun data s =>
  ⟨classInstr (wordClass data) data, decodeWord_eq data, classInstr_wf (wordClass_accepts data) s.cfg,
    exec_decode_eq_exec_classInstr data s⟩

/-! ## Presented table rows (rule R60, log 6) -/

theorem decodeTableWord_of_ok {nbits w : Nat} {i : Instr} (hw : w < 2 ^ nbits)
    (h : decodeBytes Params.default (bytesOfNat ((nbits + 7) / 8) w) = .ok i) :
    decodeTableWord nbits w = some i := by
  simp only [decodeTableWord, Nat.mod_eq_of_lt hw, h]

/-- A byte lane of a number's low 32 bits. -/
theorem lane_ofNat (w : Nat) {k : Nat} (hk : k < 4) :
    lane (BitVec.ofNat 32 w) k = BitVec.ofNat 8 (w / 2 ^ (8 * k)) := by
  apply BitVec.eq_of_getLsbD_eq
  intro i hi
  have hbit : 8 * k + i < 32 := by omega
  rw [lane, BitVec.getLsbD_extractLsb', BitVec.getLsbD_ofNat, BitVec.getLsbD_ofNat,
    Nat.testBit_div_two_pow, Nat.add_comm i]
  simp [hi, hbit]

/-- Four bytes of a number are the buffer of its word (rule R31). -/
theorem bytesOfNat_four (w : Nat) : bytesOfNat 4 w = bufferBytes (BitVec.ofNat 32 w) := by
  rw [bufferBytes, lane_ofNat w (by decide), lane_ofNat w (by decide), lane_ofNat w (by decide),
    lane_ofNat w (by decide)]
  simp [bytesOfNat, Nat.div_div_eq_div_mul]

/-- A step with a bundle presented by `presentNext` runs its command on the state itself. -/
theorem step_presentNext (c : Bundle) (s : State) :
    step (presentNext c s) = exec (decodeBundle s.cfg c) s := rfl

/-- A class row is presented as the DECODE of its word. -/
theorem step_withFetchWord_buffer {s : State} (hlegal : s.cfg.legal = true) (w : Nat) :
    step (s.withFetchWord 32 w) = exec (.decode (BitVec.ofNat 32 w)) s := by
  have hcommand : decodeBundle s.cfg (rowBundle s.cfg.lenW 32 w) = .decode (BitVec.ofNat 32 w) := by
    rw [rowBundle, if_pos le_rfl, decodeBundle_bundleOf (four_lt_two_pow_lenW hlegal)]
    simp [selectCommand]
  rw [State.withFetchWord, step_presentNext, hcommand]

/-- Settles O52: a 32-bit row is a buffer, which DECODE runs as its class; a 37-bit row is a bundle. -/
theorem presentedTableRowRunsNext : Obligations.PresentedTableRowRunsNext := by
  constructor
  · intro s w hlegal hw
    refine ⟨_, decodeTableWord_of_ok hw ((congrArg _ (bytesOfNat_four w)).trans
      (decodeBytes_bufferBytes _ _)), ?_⟩
    rw [step_withFetchWord_buffer hlegal, exec_decode_eq_exec_classInstr]
  · intro s w hcfg hw
    have hbytes : decodeBytes Params.default (bytesOfNat 5 w) = .ok (decodeBundle Params.default w) :=
      decodeBytes_bytesOfNat (cfg := Params.default) (by decide) hw
    refine ⟨_, decodeTableWord_of_ok (hw.trans (by decide)) hbytes, ?_⟩
    rw [← hcfg]
    rfl

/-! ## Terms that are not well-formed (log 10) -/

/-- Settles O58: each meaning is its class's formula, whatever the operands; the signed zero's word is
`packWord_zero`. -/
theorem illFormedTermsComputeTheSameFormulas : Obligations.IllFormedTermsComputeTheSameFormulas := by
  refine ⟨fun sign s => ?_, fun _ _ _ _ _ => rfl, fun _ _ => rfl, fun _ _ => rfl⟩
  rw [← packWord_zero]
  rfl

/-! ## The domain of the values (rule R84) -/

theorem signFactor_mul_magnitude_inDomain (sign : BitVec 1) {m : ℚ} (hm : 0 < m) :
    (Value.rat (signFactor sign * m)).inDomain :=
  mul_ne_zero (signFactor_ne_zero sign) hm.ne'

/-- Settles O31, class by class: a finite nonzero word has a positive magnitude, a NaN a payload. -/
theorem valueLiesInItsDomain : Obligations.ValueLiesInItsDomain := by
  intro data
  have haccepts := wordClass_accepts data
  have hvalue := wordValue_eq data
  cases hcls : wordClass data with rw [hcls] at haccepts hvalue
  | zero =>
    rw [hvalue, valueOf]
    split <;> trivial
  | subnormal =>
    obtain ⟨hpos, hrat⟩ := wordValue_eq_rat_magnitude (.inl haccepts)
    rw [hrat]
    exact signFactor_mul_magnitude_inDomain _ hpos
  | normalized =>
    obtain ⟨hpos, hrat⟩ := wordValue_eq_rat_magnitude (.inr haccepts)
    rw [hrat]
    exact signFactor_mul_magnitude_inDomain _ hpos
  | positiveInfinity => rw [hvalue]; trivial
  | negativeInfinity => rw [hvalue]; trivial
  | nan =>
    rw [hvalue]
    exact haccepts.2

end Sys2Proof.Machine
